-- ==== Sys2Proof/Word.lean ====
section
/-! DEFINITION. The word types of HBP and nothing else: every value of HBP is unsigned and bit 0 is its
least significant bit (00_scope.md R11). -/

namespace Sys2Proof

/-- A register, a CM word or a command word: 32 bits (00_scope.md R9, 20_memory.md R61). -/
abbrev Word := BitVec 32

/-- A byte of the packed buffer (20_memory.md R64). -/
abbrev Byte := BitVec 8

/-- The accumulator: 192 bits of storage, of which 168 are significant (10_state.md R44, 90_conflicts.md C5). -/
abbrev Accum := BitVec 192

/-- A camera index 0..7: the 3-bit field CAM of a command word (30_encoding.md R92). -/
abbrev CamIx := BitVec 3

/-- A bin index 0..1023: the 10 bits BIN holds (10_state.md R40). -/
abbrev BinIx := BitVec 10

end Sys2Proof
end

