-- ==== Sys2Proof/Machine/Interface.lean ====
section
/-! DEFINITION. The names of HBP's interface: the register slots, the host's transactions, what the outside world can
do to the block, what a read returns, the long commands and the reasons of a rejection. -/

namespace Sys2Proof.Machine

/-- The 16 word slots of the register window, the three reserved ones under one name (10_state.md R24, R26). -/
inductive Slot where
  | param
  | cmd
  | status
  | data
  | bin
  | errLoc
  | errVal
  /-- ACC0..ACC5 -/
  | acc (k : Fin 6)
  | reserved
  deriving DecidableEq, Repr

/-- The five transactions of the host interface (20_memory.md R67). There is none that writes PB (R65). -/
inductive Transaction where
  | regRd (off : Nat)
  | regWr (off : Nat) (v : Word)
  | cmRd (i : Nat)
  | cmWr (i : Nat) (v : Word)
  | pbRd (j : Nat)
  deriving DecidableEq, Repr

/-- What the outside world does next. `poll` is the host's WAIT loop: read STATUS until BUSY reads 0
(30_encoding.md R98; log entry 5). `reset` is the reset input (70_reset_and_hazards.md R210). -/
inductive Input where
  | tx (t : Transaction)
  | poll
  | reset
  deriving DecidableEq, Repr

/-- The value a read transaction returns: 32 bits from REG and CM, 8 bits from PB (20_memory.md R67). -/
inductive Reply where
  | word (v : Word)
  | byte (v : Byte)
  deriving DecidableEq, Repr

/-- A long command with the operand captured at its acceptance (10_state.md R30). -/
inductive LongOp where
  | packbin (b : BinIx)
  | pack
  deriving DecidableEq, Repr

/-- Why a host access is rejected (60_exceptions.md R184): REJ_BUSY, REJ_ILLEGAL, REJ_OVF_PENDING, REJ_LOCKED_REG,
REJ_LOCKED_CM. The machine records none of them. -/
inductive RejectReason where
  | busy
  | illegal
  | ovfPending
  | lockedReg
  | lockedCm
  deriving DecidableEq, Repr

end Sys2Proof.Machine
end

