-- ==== Sys2Proof/Syntax.lean ====
section
/-! DEFINITION. The seven commands of HBP, one constructor per row of spec/opcode_table.json (30_encoding.md R93). -/

namespace Sys2Proof

/-- A command. PLACE alone has an operand in the word, the camera index CAM (30_encoding.md R91, R92). -/
inductive Instr where
  | nop
  | aclr
  | place (cam : CamIx)
  | emit
  | packbin
  | pack
  | eclr
  deriving DecidableEq, Repr

end Sys2Proof
end

