-- ==== Sys2Proof/WellFormed.lean ====
section
/-! DEFINITION. What is well formed. A command always is: its one operand, CAM, is three bits by type. What can be
ill-formed is the transaction that carries it (20_memory.md R68, R69). -/

namespace Sys2Proof

/-- Every command can be encoded: CAM is any camera 0..7 (30_encoding.md R92). -/
def Instr.wellFormed : Instr → Bool
  | .nop | .aclr | .place _ | .emit | .packbin | .pack | .eclr => true

/-- The transaction lies inside the interface: an offset is a multiple of 4 below 0x40 (20_memory.md R69), a CM index is
at most 8191 and a PB index at most 21,503 (R68). -/
def Machine.Transaction.wellFormed : Machine.Transaction → Bool
  | .regRd off => off % 4 == 0 && decide (off < 0x40)
  | .regWr off _ => off % 4 == 0 && decide (off < 0x40)
  | .cmRd i => decide (i ≤ 8191)
  | .cmWr i _ => decide (i ≤ 8191)
  | .pbRd j => decide (j ≤ 21503)

/-- A poll and a reset are always inside the interface. -/
def Machine.Input.wellFormed : Machine.Input → Bool
  | .tx t => t.wellFormed
  | .poll => true
  | .reset => true

end Sys2Proof
end

