-- ==== Sys2Proof/Decode.lean ====
section
/-! DEFINITION. The decoder of command words, total on every 32-bit word (30_encoding.md R96), and after it the encoder
written from the same field table (R91, R93). A command word is a number with no byte order (20_memory.md R72). -/

namespace Sys2Proof

/-- OP = w[3:0] (30_encoding.md R91). -/
abbrev opField (w : Word) : BitVec 4 := w.extractLsb' 0 4

/-- CAM = w[6:4] (30_encoding.md R91). -/
abbrev camField (w : Word) : CamIx := w.extractLsb' 4 3

/-- RSV = w[31:7] (30_encoding.md R91). -/
abbrev rsvField (w : Word) : BitVec 25 := w.extractLsb' 7 25

/-- The predicate `legal(w)` of 30_encoding.md R95. -/
def legal (w : Word) : Bool :=
  rsvField w == 0 && decide ((opField w).toNat ≤ 0x6) && (opField w == 0x2 || camField w == 0)

/-- Why a word is no command (30_encoding.md R95): an RSV bit set, OP 0x7 to 0xF, or CAM nonzero where OP is not PLACE's. -/
inductive Illegal where
  | reservedBits
  | reservedOp
  | strayCam
  deriving DecidableEq, Repr

/-- A command without an operand: CAM must be 0 (30_encoding.md R91). -/
def noOperand (w : Word) (i : Instr) : Except Illegal Instr :=
  if camField w = 0 then .ok i else .error .strayCam

/-- 30_encoding.md R96. -/
def decode (w : Word) : Except Illegal Instr :=
  if rsvField w ≠ 0 then .error .reservedBits
  else
    match (opField w).toNat with
    | 0x0 => noOperand w .nop
    | 0x1 => noOperand w .aclr
    | 0x2 => .ok (.place (camField w))
    | 0x3 => noOperand w .emit
    | 0x4 => noOperand w .packbin
    | 0x5 => noOperand w .pack
    | 0x6 => noOperand w .eclr
    | _ => .error .reservedOp

/-- A command word laid out by the field table of 30_encoding.md R91, RSV = 0. -/
def commandWord (op : BitVec 4) (cam : CamIx) : Word :=
  cam.setWidth 32 <<< 4 ||| op.setWidth 32

/-- The word of a command (30_encoding.md R93). -/
def encode : Instr → Word
  | .nop => commandWord 0x0 0
  | .aclr => commandWord 0x1 0
  | .place c => commandWord 0x2 c
  | .emit => commandWord 0x3 0
  | .packbin => commandWord 0x4 0
  | .pack => commandWord 0x5 0
  | .eclr => commandWord 0x6 0

/-- What `decode` reads from a table word of `nbits` bits (the bits above `nbits` are 0). Every command is one 32-bit
word (30_encoding.md R90), so a longer one is none. -/
def decodeTableWord (nbits w : Nat) : Option Instr :=
  if nbits ≤ 32 then (decode (BitVec.ofNat 32 (w % 2 ^ nbits))).toOption else none

end Sys2Proof
end

