-- ==== Sys2Proof/Config.lean ====
section
/-! DEFINITION. What is fixed for HBP (the parameters of 00_scope.md R8 that PARAM shows) and what its spec leaves
OPEN (92_eei_decisions.md P1 to P3). The open ones have no body: nothing can be proved about their values, so a
statement about the model holds whatever they are. -/

namespace Sys2Proof.Config

/-- FIELD_W: the width of every field in bits (00_scope.md R8). -/
def fieldW : Nat := 21

/-- N_CAM: cameras, the fields of a record (00_scope.md R8). -/
def nCam : Nat := 8

/-- N_BIN: bins, the records of the packed buffer (00_scope.md R8). -/
def nBin : Nat := 1024

/-- OPEN P1 `t_long`: how many inputs the n-th accepted long command lets pass before its completion step
(41_matrix_packing.md R150). Free value, log entry 2. -/
opaque tLong : Nat → Nat

/-- OPEN P2 `init_cm`: what word i of CM holds after the n-th reset, until it is written
(70_reset_and_hazards.md R211, 92_eei_decisions.md D31). Free value, log entry 3. -/
opaque initCm : Nat → Nat → Word

/-- OPEN P3 `init_pb`: what byte j of PB holds after the n-th reset, until it is written
(70_reset_and_hazards.md R211). Free value, log entry 3. -/
opaque initPb : Nat → Nat → Byte

end Sys2Proof.Config
end

