-- ==== Sys2Proof/Machine/State.lean ====
section
/-! DEFINITION. The state of HBP: everything 10_state.md R23 lists, as plain data, and beside it the model's own fields
(what the outside world does next, what reads returned, and the counters that draw the spec's OPEN parameters). -/

namespace Sys2Proof.Machine

/-- Storage with an index space: the cells written since reset, as (index, value) pairs with indices strictly rising.
An index not listed holds the value drawn at reset (70_reset_and_hazards.md R211; log entry 3). PB is a list of
`Host.Cell`; CM's unit is the 32-bit word (20_memory.md R61, R72). -/
abbrev Memory (w : Nat) := List (Nat × BitVec w)

/-- The canonical form: indices strictly rising, and all of them inside the space. -/
abbrev Memory.wf {w : Nat} (size : Nat) (m : Memory w) : Prop :=
  m.Pairwise (fun c d => c.1 < d.1) ∧ ∀ c ∈ m, c.1 < size

structure State where
  /-- DATA, the count operand of PLACE (10_state.md R39). -/
  data : Word
  /-- BIN[9:0]; bits [31:10] read 0 and have no storage (10_state.md R40). -/
  bin : BinIx
  /-- STATUS.DONE (10_state.md R35). -/
  done : Bool
  /-- STATUS.OVF (10_state.md R36). -/
  ovf : Bool
  /-- STATUS.CMD_ERR (10_state.md R37). -/
  cmdErr : Bool
  /-- ERR_LOC.CAM (10_state.md R41). -/
  errCam : CamIx
  /-- ERR_LOC.BIN (10_state.md R41). -/
  errBin : BinIx
  /-- ERR_VAL (10_state.md R42). -/
  errVal : Word
  /-- The accumulator, seen through ACC0..ACC5 (10_state.md R44). -/
  acc : Accum
  /-- The pending operation; STATUS.BUSY reads 1 exactly when it is not none (10_state.md R30). -/
  pend : Option LongOp
  /-- CM, the count memory: 8192 words (20_memory.md R61). -/
  cm : Memory 32
  /-- PB, the packed buffer: 21,504 bytes (20_memory.md R64). -/
  pb : Memory 8
  /-- Model's own: how many resets have happened; selects the draw of CM and PB (log entry 3). -/
  epoch : Nat
  /-- Model's own: how many more inputs come before the completion of `pend` (log entry 2). -/
  wait : Nat
  /-- Model's own: how many long commands have been accepted; selects the draw of `t_long` (log entry 2). -/
  longs : Nat
  /-- Model's own: what the outside world does next, first thing first (log entry 1). -/
  inbox : List Input
  /-- Model's own: what the host's reads have returned, newest first (log entry 4). -/
  replies : List Reply
  deriving DecidableEq, Repr

/-- Nothing stops HBP: both of its events are latched in STATUS (60_exceptions.md R180, R190). So there is no fault. -/
inductive Fault where
  deriving DecidableEq, Repr

/-- What the model refuses. All but the first are the transactions outside the interface, which a model refuses
(20_memory.md R68, R69): safe, nothing can be proved of a run that holds one. -/
inductive Refusal where
  /-- A command with no meaning yet: raised by `exec`'s refused arms only; there is none. Safe. -/
  | notModelled (mnemonic : String)
  /-- REG_RD or REG_WR at an offset that is no multiple of 4 or is 0x40 or more (20_memory.md R69); raised by
  `transact`. Safe. -/
  | offsetOutside (off : Nat)
  /-- CM_RD or CM_WR above 8191 (20_memory.md R68); raised by `transact`. Safe. -/
  | cmIndexOutside (i : Nat)
  /-- PB_RD above 21,503 (20_memory.md R68); raised by `transact`. Safe. -/
  | pbIndexOutside (j : Nat)
  deriving DecidableEq, Repr

/-- Right after reset (10_state.md R47). CM and PB list nothing: every cell holds its draw. The model's own fields start
at 0 and empty (DESIGN CHOICE, log entries 1 to 4). -/
def State.reset : State where
  data := 0
  bin := 0
  done := false
  ovf := false
  cmdErr := false
  errCam := 0
  errBin := 0
  errVal := 0
  acc := 0
  pend := none
  cm := []
  pb := []
  epoch := 0
  wait := 0
  longs := 0
  inbox := []
  replies := []

end Sys2Proof.Machine
end

