-- ==== Sys2Proof/Machine/Flags.lean ====
section
/-! DEFINITION. The words the host reads from flags and error fields: PARAM, STATUS, BIN, ERR_LOC. -/

namespace Sys2Proof.Machine

/-- PARAM: FIELD_W in [7:0], N_CAM in [15:8], N_BIN in [31:16] (10_state.md R31). -/
def paramWord : Word :=
  BitVec.ofNat 32 Config.nBin <<< 16 ||| BitVec.ofNat 32 Config.nCam <<< 8 ||| BitVec.ofNat 32 Config.fieldW

/-- STATUS.BUSY: a long command is pending (10_state.md R30, R34). -/
def State.busy (s : State) : Bool := s.pend.isSome

/-- A flag as a 32-bit value, 0 or 1. -/
def flagBit (f : Bool) : Word := (BitVec.ofBool f).setWidth 32

/-- STATUS: BUSY bit 0, DONE bit 1, OVF bit 2, CMD_ERR bit 3, the rest 0 (10_state.md R33, R38). -/
def statusWord (s : State) : Word :=
  flagBit s.cmdErr <<< 3 ||| flagBit s.ovf <<< 2 ||| flagBit s.done <<< 1 ||| flagBit s.busy

/-- BIN as the host reads it: bits [31:10] are 0 (10_state.md R40). -/
def binWord (s : State) : Word := s.bin.setWidth 32

/-- ERR_LOC: CAM in [2:0], BIN in [25:16], the rest 0 (10_state.md R41, 60_exceptions.md R182). -/
def errLocWord (s : State) : Word := s.errBin.setWidth 32 <<< 16 ||| s.errCam.setWidth 32

end Sys2Proof.Machine
end

