-- ==== Sys2Proof/Machine/Operands.lean ====
section
/-! DEFINITION. Fields, records and bytes as pure functions of values: the width validator, placement of a field at bit
level and at storage-word level, serialization, and the two operand layouts in CM and PB. -/

namespace Sys2Proof.Machine

/-- `fits(v)`: the whole 32-bit value is below 2^21 (40_record_assembly.md R116). -/
def fits (v : Word) : Bool := decide (v.toNat < 2 ^ 21)

/-- The bit position `c * 21` of camera c's field (30_encoding.md R92, 40_record_assembly.md R113). -/
def bitPos (c : CamIx) : Nat := c.toNat * 21

/-- `acc | (zext_192(v) << (c * 21))` (40_record_assembly.md R112). -/
def placeField (a : Accum) (c : CamIx) (v : Word) : Accum := a ||| (v.setWidth 192 <<< bitPos c)

/-- Storage word k of the accumulator, `acc[32k+31:32k]` (10_state.md R44). -/
def accWord (a : Accum) (k : Nat) : Word := a.extractLsb' (32 * k) 32

/-- The six storage words, word 0 first (10_state.md R44). -/
def accWords (a : Accum) : List Word := (List.range 6).map (accWord a)

/-- Placement as the spec does it on the storage words (40_record_assembly.md R114). -/
def placeWords (ws : List Word) (c : CamIx) (v : Word) : List Word :=
  let k := bitPos c / 32
  let off := bitPos c % 32
  let low := ws.modify k (· ||| (v <<< off))
  if off > 11 then low.modify (k + 1) (· ||| (v >>> (32 - off))) else low

/-- Byte k of the record in the low 168 bits of `a`: `a[8k+7:8k]` (40_record_assembly.md R119). -/
def recordByte (a : Accum) (k : Nat) : Byte := a.extractLsb' (8 * k) 8

/-- Byte k taken from the storage words, with no host's byte order (20_memory.md R71). -/
def recordByteOfWords (ws : List Word) (k : Nat) : Byte := (ws.getD (k / 4) 0).extractLsb' (8 * (k % 4)) 8

/-- `ser(a)`: the 21 bytes of the record; bits 168..191 are in none of them (40_record_assembly.md R119, R120). -/
def serialize (a : Accum) : List Byte := (List.range 21).map (recordByte a)

/-- The CM index of camera c's count at bin b (20_memory.md R61). -/
def countIndex (c : CamIx) (b : BinIx) : Nat := c.toNat * 1024 + b.toNat

/-- The PB index of the first byte of record b (20_memory.md R64). -/
def recordIndex (b : BinIx) : Nat := b.toNat * 21

/-- The cameras in ascending order. -/
def cameras : List CamIx := (List.range 8).map (BitVec.ofNat 3)

/-- The bins in ascending order. (Irreducible: no proof should unroll 1024 of them; see Laws/Operands.lean.) -/
@[irreducible] def bins : List BinIx := (List.range 1024).map (BitVec.ofNat 10)

end Sys2Proof.Machine
end

