-- ==== Sys2Proof/Machine/Ops.lean ====
section
/-! DEFINITION. The named operations over memory and state: reading and writing CM and PB, the two events and the
recovery from them, the acceptance of a command, and the start and end of a long command. -/

namespace Sys2Proof.Machine

/-! ### Memory -/

/-- The value written at index i since reset, if any. -/
def Memory.read {w : Nat} : Memory w → Nat → Option (BitVec w)
  | [], _ => none
  | (j, v) :: m, i => if j = i then some v else Memory.read m i

/-- The cells of a run of values at consecutive indices. -/
def Memory.run {w : Nat} (base : Nat) : List (BitVec w) → Memory w
  | [] => []
  | v :: vs => (base, v) :: Memory.run (base + 1) vs

/-- Store a run of values at base, base + 1, ...; every other cell stays as it is. -/
def Memory.write {w : Nat} (base : Nat) (vs : List (BitVec w)) (m : Memory w) : Memory w :=
  m.filter (fun c => c.1 < base) ++ Memory.run base vs ++ m.filter (fun c => base + vs.length ≤ c.1)

/-- `MemRead(CM, i, 4)`: a word not written since reset holds its draw (20_memory.md R62, 92_eei_decisions.md D31). -/
def State.cmWord (s : State) (i : Nat) : Word := (s.cm.read i).getD (Config.initCm s.epoch i)

/-- `MemRead(PB, j, 1)`: a byte not written since reset holds its draw (20_memory.md R65, 70_reset_and_hazards.md R211). -/
def State.pbByte (s : State) (j : Nat) : Byte := (s.pb.read j).getD (Config.initPb s.epoch j)

/-- `count(c, b)` (41_matrix_packing.md R141). -/
def State.count (s : State) (c : CamIx) (b : BinIx) : Word := s.cmWord (countIndex c b)

/-! ### Events and recovery -/

/-- `raise FieldOverflow(cam, bin, value)` (60_exceptions.md R182). The event saves the three values, sets OVF and
abandons the accumulator; it transfers control nowhere (R190). -/
def raiseFieldOverflow (cam : CamIx) (bin : BinIx) (value : Word) (s : State) : State :=
  { s with ovf := true, errCam := cam, errBin := bin, errVal := value, acc := 0 }

/-- `raise CmdReject()` (60_exceptions.md R185); the reason is not recorded (R180). -/
def raiseCmdReject (_reason : RejectReason) (s : State) : State := { s with cmdErr := true }

/-- The way back from either event, the effect of ECLR (42_control.md R171, 60_exceptions.md R191). -/
def clearErrors (s : State) : State :=
  { s with ovf := false, cmdErr := false, done := false, errCam := 0, errBin := 0, errVal := 0 }

/-! ### Acceptance -/

/-- The commands that are rejected while OVF = 1 (60_exceptions.md R186). -/
def blockedByOverflow : Instr → Bool
  | .nop => false
  | .aclr => false
  | .place _ => true
  | .emit => true
  | .packbin => true
  | .pack => true
  | .eclr => false

/-- Why a legal command is rejected in this state, if it is; BUSY is checked first (60_exceptions.md R184, R186). -/
def rejection (i : Instr) (s : State) : Option RejectReason :=
  if s.busy then some .busy
  else if s.ovf && blockedByOverflow i then some .ovfPending
  else none

/-- The effect of command i if it is accepted, else a rejection (60_exceptions.md R186). -/
def whenAccepted (i : Instr) (effect : State → State) (s : State) : Host.Outcome State Fault Refusal :=
  match rejection i s with
  | some r => .next (raiseCmdReject r s)
  | none => .next (effect s)

/-! ### Long commands -/

/-- Acceptance of a long command (41_matrix_packing.md R144, R146). Its time to completion is drawn here (log entry 2). -/
def startLong (op : LongOp) (s : State) : State :=
  { s with pend := some op, done := false, wait := Config.tLong s.longs, longs := s.longs + 1 }

/-- `pend <- none` (41_matrix_packing.md R145, R147). -/
def finishLong (s : State) : State := { s with pend := none, wait := 0 }

/-- The success of a long command: the bytes in PB, the last record in acc, DONE set (41_matrix_packing.md R145, R147). -/
def publish (base : Nat) (bytes : List Byte) (a : Accum) (s : State) : State :=
  { s with pb := s.pb.write base bytes, acc := a, done := true }

/-! ### The outside world -/

/-- Take the first input; a pending command comes one input nearer to its completion (log entries 1 and 2). -/
def takeInput (rest : List Input) (s : State) : State := { s with inbox := rest, wait := s.wait - 1 }

/-- A read returns a value to the host and changes no state of the block (20_memory.md R75). -/
def answer (r : Reply) (s : State) : State := { s with replies := r :: s.replies }

/-- The reset event (70_reset_and_hazards.md R211): every register as State.reset has it, CM and PB drawn anew. What the
outside world does next, and what it has read, are not HBP's and stay (log entry 6). -/
def resetEvent (s : State) : State :=
  { State.reset with epoch := s.epoch + 1, longs := s.longs, inbox := s.inbox, replies := s.replies }

end Sys2Proof.Machine
end

