-- ==== Sys2Proof/Machine/Assembly.lean ====
section
/-! DEFINITION. The record assembly commands ACLR, PLACE and EMIT (40_record_assembly.md). -/

namespace Sys2Proof.Machine

/-- ACLR: acc <- 0 (40_record_assembly.md R111). -/
def execAclr (s : State) : Host.Outcome State Fault Refusal :=
  whenAccepted .aclr (fun s => { s with acc := 0 }) s

/-- The effect of an accepted PLACE c: the count in DATA is validated, then placed (40_record_assembly.md R112). -/
def placeEffect (cam : CamIx) (s : State) : State :=
  if fits s.data then { s with acc := placeField s.acc cam s.data }
  else raiseFieldOverflow cam s.bin s.data s

/-- PLACE c (40_record_assembly.md R112). -/
def execPlace (cam : CamIx) (s : State) : Host.Outcome State Fault Refusal :=
  whenAccepted (.place cam) (placeEffect cam) s

/-- EMIT: the 21 bytes of acc go to record BIN of PB (40_record_assembly.md R118). -/
def execEmit (s : State) : Host.Outcome State Fault Refusal :=
  whenAccepted .emit (fun s => { s with pb := s.pb.write (recordIndex s.bin) (serialize s.acc) }) s

end Sys2Proof.Machine
end

