-- ==== Sys2Proof/Machine/Control.lean ====
section
/-! DEFINITION. The control commands NOP and ECLR (42_control.md). -/

namespace Sys2Proof.Machine

/-- NOP: an accepted one changes no state at all (42_control.md R170). -/
def execNop (s : State) : Host.Outcome State Fault Refusal :=
  whenAccepted .nop (fun s => s) s

/-- ECLR: OVF, CMD_ERR, DONE, ERR_LOC and ERR_VAL to 0 (42_control.md R171). -/
def execEclr (s : State) : Host.Outcome State Fault Refusal :=
  whenAccepted .eclr clearErrors s

end Sys2Proof.Machine
end

