-- ==== Sys2Proof/Machine/Packing.lean ====
section
/-! DEFINITION. The matrix packing commands PACKBIN and PACK: their acceptance (the meaning of the command) and their
completion (the engine's step), 41_matrix_packing.md. -/

namespace Sys2Proof.Machine

/-- PACKBIN, acceptance: BIN is captured (41_matrix_packing.md R144). -/
def execPackbin (s : State) : Host.Outcome State Fault Refusal :=
  whenAccepted .packbin (fun s => startLong (.packbin s.bin) s) s

/-- PACK, acceptance (41_matrix_packing.md R146). -/
def execPack (s : State) : Host.Outcome State Fault Refusal :=
  whenAccepted .pack (startLong .pack) s

/-- `Record(b)`: the OR of the eight placed counts of bin b (41_matrix_packing.md R142). -/
def record (s : State) (b : BinIx) : Accum :=
  cameras.foldl (fun a c => placeField a c (s.count c b)) 0

/-- `firstBad(b)`: the least camera whose count at bin b does not fit (41_matrix_packing.md R143). -/
def firstBad (s : State) (b : BinIx) : Option CamIx := cameras.find? (fun c => !fits (s.count c b))

/-- `firstBadAll`: bin ascending, then camera ascending (41_matrix_packing.md R143). -/
def firstBadAll (s : State) : Option (BinIx × CamIx) :=
  bins.findSome? (fun b => (firstBad s b).map (fun c => (b, c)))

/-- All the bytes of a successful PACK, record 0 first (41_matrix_packing.md R147). -/
def packedBytes (s : State) : List Byte := bins.flatMap (fun b => serialize (record s b))

/-- PACKBIN, completion (41_matrix_packing.md R145). -/
def completePackbin (b : BinIx) (s : State) : State :=
  match firstBad s b with
  | some c => finishLong (raiseFieldOverflow c b (s.count c b) s)
  | none => finishLong (publish (recordIndex b) (serialize (record s b)) (record s b) s)

/-- PACK's completion, given the first offending count, if any: on success the records of all bins, of which the last is
left in acc (41_matrix_packing.md R147). -/
def finishPack (bad : Option (BinIx × CamIx)) (s : State) : State :=
  match bad with
  | some (b, c) => finishLong (raiseFieldOverflow c b (s.count c b) s)
  | none => finishLong (publish 0 (packedBytes s) (record s 1023) s)

/-- PACK, completion (41_matrix_packing.md R147). -/
def completePack (s : State) : State := finishPack (firstBadAll s) s

/-- The engine's step: it completes the pending operation; with none pending there is nothing to do
(41_matrix_packing.md R140). -/
def complete (s : State) : State :=
  match s.pend with
  | some (.packbin b) => completePackbin b s
  | some .pack => completePack s
  | none => s

/-- Whether the engine takes the next step (41_matrix_packing.md R150): an operation is pending, and either its time has
come or the host does nothing more (20_memory.md R84; log entry 2). -/
def engineTurn (s : State) : Bool := s.busy && (s.wait == 0 || s.inbox.isEmpty)

end Sys2Proof.Machine
end

