-- ==== Sys2Proof/Machine/Dispatch.lean ====
section
/-! DEFINITION. One arm per command. -/

namespace Sys2Proof.Machine

def exec (i : Instr) (s : State) : Host.Outcome State Fault Refusal :=
  match i with
  -- control
  | .nop => Sys2Proof.Machine.execNop s
  -- record assembly
  | .aclr => Sys2Proof.Machine.execAclr s
  | .place cam => Sys2Proof.Machine.execPlace cam s
  | .emit => Sys2Proof.Machine.execEmit s
  -- matrix packing
  | .packbin => Sys2Proof.Machine.execPackbin s
  | .pack => Sys2Proof.Machine.execPack s
  -- control
  | .eclr => Sys2Proof.Machine.execEclr s

end Sys2Proof.Machine
end

