-- ==== Sys2Proof/Machine/Transact.lean ====
section
/-! DEFINITION. The host interface: register reads and writes, CM and PB transactions, the issue of a command word, the
polling loop and the reset input. -/

namespace Sys2Proof.Machine

/-- The register window (10_state.md R24); no slot at an offset outside the interface (20_memory.md R69). -/
def slotAt : Nat → Option Slot
  | 0x00 => some .param
  | 0x04 => some .cmd
  | 0x08 => some .status
  | 0x0C => some .data
  | 0x10 => some .bin
  | 0x14 => some .errLoc
  | 0x18 => some .errVal
  | 0x1C => some .reserved
  | 0x20 => some (.acc 0)
  | 0x24 => some (.acc 1)
  | 0x28 => some (.acc 2)
  | 0x2C => some (.acc 3)
  | 0x30 => some (.acc 4)
  | 0x34 => some (.acc 5)
  | 0x38 => some .reserved
  | 0x3C => some .reserved
  | _ => none

/-- What a register read returns (10_state.md R27): CMD and reserved slots 0 (R25, R26), ACCk 0 while BUSY (R43). -/
def regValue (s : State) : Slot → Word
  | .param => paramWord
  | .cmd => 0
  | .status => statusWord s
  | .data => s.data
  | .bin => binWord s
  | .errLoc => errLocWord s
  | .errVal => s.errVal
  | .acc k => if s.busy then 0 else accWord s.acc k
  | .reserved => 0

/-- A `REG_WR` to CMD: busy, then illegal, then the command's own acceptance (60_exceptions.md R186). -/
def issue (w : Word) (s : State) : Host.Outcome State Fault Refusal :=
  if s.busy then .next (raiseCmdReject .busy s)
  else
    match decode w with
    | .error _ => .next (raiseCmdReject .illegal s)
    | .ok i => exec i s

/-- A register write (10_state.md R28): RO and reserved slots ignore it (R25, R26), DATA and BIN are locked while BUSY
(20_memory.md R76), BIN keeps v[9:0] (R40), CMD issues the word (R32). -/
def regWrite (r : Slot) (v : Word) (s : State) : Host.Outcome State Fault Refusal :=
  match r with
  | .cmd => issue v s
  | .data => .next (if s.busy then raiseCmdReject .lockedReg s else { s with data := v })
  | .bin => .next (if s.busy then raiseCmdReject .lockedReg s else { s with bin := v.extractLsb' 0 10 })
  | .param | .status | .errLoc | .errVal | .acc _ | .reserved => .next s

/-- A `CM_WR` inside the interface (20_memory.md R62, R76). -/
def cmWrite (i : Nat) (v : Word) (s : State) : State :=
  if s.busy then raiseCmdReject .lockedCm s else { s with cm := s.cm.write i [v] }

/-- What a `PB_RD` inside the interface returns (20_memory.md R65, R76). -/
def pbValue (s : State) (j : Nat) : Byte := if s.busy then 0 else s.pbByte j

/-- One host transaction (20_memory.md R67). One outside the interface is refused (R68, R69). There is one privilege level:
neither a mode nor who issues it is looked at, so every other transaction is allowed (60_exceptions.md R192, R195). -/
def transact (t : Transaction) (s : State) : Host.Outcome State Fault Refusal :=
  match t with
  | .regRd off =>
    match slotAt off with
    | some r => .next (answer (.word (regValue s r)) s)
    | none => .refused (.offsetOutside off)
  | .regWr off v =>
    match slotAt off with
    | some r => regWrite r v s
    | none => .refused (.offsetOutside off)
  | .cmRd i => if i < 8192 then .next (answer (.word (s.cmWord i)) s) else .refused (.cmIndexOutside i)
  | .cmWr i v => if i < 8192 then .next (cmWrite i v s) else .refused (.cmIndexOutside i)
  | .pbRd j => if j < 21504 then .next (answer (.byte (pbValue s j)) s) else .refused (.pbIndexOutside j)

/-- One turn of the host's WAIT loop: read STATUS, and go round again while BUSY reads 1 (30_encoding.md R98;
log entry 5). -/
def pollStatus (s : State) : State :=
  answer (.word (statusWord s)) { s with inbox := if s.busy then .poll :: s.inbox else s.inbox }

/-- What one input does. -/
def deliver (x : Input) (s : State) : Host.Outcome State Fault Refusal :=
  match x with
  | .tx t => transact t s
  | .poll => .next (pollStatus s)
  | .reset => .next (resetEvent s)

/-- The next step of the block: the engine's completion, or the next input, or nothing when the host has nothing more to
do and nothing is pending (20_memory.md R79, 70_reset_and_hazards.md R223). -/
def nextStep (s : State) : Host.Outcome State Fault Refusal :=
  if engineTurn s then .next (complete s)
  else
    match s.inbox with
    | [] => .next s
    | x :: rest => deliver x (takeInput rest s)

/-- s with the transaction that issues command word w standing first in line, and the engine's completion not before it
(log entry 7). -/
def issueNext (s : State) (w : Word) : State :=
  { s with
    inbox := .tx (.regWr 0x04 w) :: s.inbox
    wait := if s.busy then s.wait + 1 else s.wait }

end Sys2Proof.Machine
end

