-- ==== Sys2Proof/Machine/Step.lean ====
section
/-! DEFINITION. One step of HBP, and the placing of a command word where the next step takes it from. -/

namespace Sys2Proof.Machine

/-- One step in the total order of host transactions and completion steps (20_memory.md R79). -/
def step (s : State) : Host.Outcome State Fault Refusal := nextStep s

/-- HBP fetches nothing (10_state.md R22): its next command is what the host writes next to CMD. -/
def State.withFetchWord (s : State) (nbits w : Nat) : State := issueNext s (BitVec.ofNat 32 (w % 2 ^ nbits))

end Sys2Proof.Machine
end

