-- ==== Sys2Proof/Machine/Assembler.lean ====
section
/-! DEFINITION. The spec's notation for host programs as inputs of the model: the transactions of 30_encoding.md R97 and
the pseudo-instructions of R98. -/

namespace Sys2Proof.Machine

/-- `WR DATA, v` (30_encoding.md R97). -/
def asmWrData (v : Word) : Input := .tx (.regWr 0x0C v)

/-- `WR BIN, v` (30_encoding.md R97). -/
def asmWrBin (v : Word) : Input := .tx (.regWr 0x10 v)

/-- `RD STATUS` (30_encoding.md R97). -/
def asmRdStatus : Input := .tx (.regRd 0x08)

/-- `CMD m` (30_encoding.md R97). -/
def asmCmd (i : Instr) : Input := .tx (.regWr 0x04 (encode i))

/-- `CMW i, v` (30_encoding.md R97). -/
def asmCmw (i : Nat) (v : Word) : Input := .tx (.cmWr i v)

/-- `CMR i` (30_encoding.md R97). -/
def asmCmr (i : Nat) : Input := .tx (.cmRd i)

/-- `PBR j` (30_encoding.md R97). -/
def asmPbr (j : Nat) : Input := .tx (.pbRd j)

/-- `WAIT` (30_encoding.md R98). -/
def asmWait : Input := .poll

/-- `SETC c, b, v` (30_encoding.md R98). -/
def asmSetc (c : CamIx) (b : BinIx) (v : Word) : Input := asmCmw (countIndex c b) v

/-- `PUT c, v` (30_encoding.md R98). -/
def asmPut (c : CamIx) (v : Word) : List Input := [asmWrData v, asmCmd (.place c)]

/-- `PACKREC b` (30_encoding.md R98). -/
def asmPackrec (b : BinIx) : List Input := [asmWrBin (b.setWidth 32), asmCmd .packbin, asmWait]

/-- `PACKALL` (30_encoding.md R98). -/
def asmPackall : List Input := [asmCmd .pack, asmWait]

end Sys2Proof.Machine
end

