-- ==== Sys2Proof/Safety.lean ====
section
/-! DEFINITION. The terms in which claims are made: host programs inside the interface, the end of a run, the invariant
of the machine, and the source's own `pack` function and its inverse, which are outside the hardware. -/

namespace Sys2Proof

open Machine

/-- Every input lies inside the interface: the premise of any claim about a host program (20_memory.md R68, R69, R84). -/
def InputsInside (xs : List Input) : Prop := ∀ x ∈ xs, x.wellFormed = true

/-- The run is over: the host has issued its last transaction and nothing is pending (70_reset_and_hazards.md R223). -/
def Finished (s : State) : Prop := s.inbox = [] ∧ s.pend = none

/-- What holds of every state a run from reset can reach. A state that breaks it is one no program can see. -/
structure Inv (s : State) : Prop where
  /-- CM is in canonical form inside its 8192 words (20_memory.md R61). -/
  cm_wf : s.cm.wf 8192
  /-- PB is in canonical form inside its 21,504 bytes (20_memory.md R64, 41_matrix_packing.md R151). -/
  pb_wf : s.pb.wf 21504
  /-- `acc[191:168] = 0` (10_state.md R45). -/
  acc_high : s.acc.extractLsb' 168 24 = 0
  /-- With OVF = 0, ERR_LOC and ERR_VAL read 0 (10_state.md R41, R42). -/
  err_clear : s.ovf = false → s.errCam = 0 ∧ s.errBin = 0 ∧ s.errVal = 0
  /-- With OVF = 1, ERR_VAL is at least 2^21 (10_state.md R42). -/
  err_big : s.ovf = true → 2 ^ 21 ≤ s.errVal.toNat
  /-- With OVF = 1 the accumulator stays abandoned: the event cleared it and what could fill it is rejected
  (60_exceptions.md R182, R186). -/
  acc_abandoned : s.ovf = true → s.acc = 0
  /-- A long command is pending only with OVF = 0 and DONE = 0 (10_state.md R35, 60_exceptions.md R188). -/
  pend_clean : s.pend ≠ none → s.ovf = false ∧ s.done = false

/-- A count matrix (00_scope.md R14). -/
abbrev Matrix := CamIx → BinIx → Word

/-- The matrix CM holds (20_memory.md R61). -/
def matrixOf (s : State) : Matrix := fun c b => s.count c b

/-- A record assembled by hand: for each camera in turn, its count of bin b goes to DATA and PLACE is run
(40_record_assembly.md R112, 41_matrix_packing.md R142). -/
def assemble (m : Matrix) (b : BinIx) : List CamIx → State → Host.Outcome State Fault Refusal
  | [], s => .next s
  | c :: cs, s =>
    match exec (.place c) { s with data := m c b } with
    | .next t => assemble m b cs t
    | .fault r => .fault r
    | .refused r => .refused r

/-- The source's error `FieldOverflow(camera, bin, value)` (60_exceptions.md R181). -/
structure PackError where
  camera : CamIx
  bin : BinIx
  value : Word
  deriving DecidableEq, Repr

/-- One turn of the source's loop over cameras: validate, fail at once, else place (40_record_assembly.md R112's
quotation of the source). -/
def sourcePlace (m : Matrix) (b : BinIx) (a : Accum) (c : CamIx) : Except PackError Accum :=
  if 2 ^ 21 ≤ (m c b).toNat then .error ⟨c, b, m c b⟩ else .ok (placeField a c (m c b))

/-- One turn of the source's loop over bins: an empty accumulator, the eight cameras, then 21 bytes more. -/
def sourceBin (m : Matrix) (buf : List Byte) (b : BinIx) : Except PackError (List Byte) :=
  match cameras.foldlM (sourcePlace m b) 0 with
  | .error e => .error e
  | .ok a => .ok (buf ++ serialize a)

/-- The source's `pack(counts)`: it validates as it goes and gives up at the first count that does not fit, unlike the
engine, which validates first (41_matrix_packing.md R148, 90_conflicts.md C2, C7). -/
def sourcePack (m : Matrix) : Except PackError (List Byte) := bins.foldlM (sourceBin m) []

/-- The test oracle `unpack(PB)(c, b)`: the bytes of record b as one number, then its field c (95_test_vectors.md 1.5). -/
def unpack (pb : Nat → Byte) (c : CamIx) (b : BinIx) : Nat :=
  ((List.range 21).map (fun k => (pb (21 * b.toNat + k)).toNat * 2 ^ (8 * k))).sum / 2 ^ (21 * c.toNat) % 2 ^ 21

/-- The rejection table of 60_exceptions.md R184, condition by condition. -/
def RejectedAccess (s : State) : Transaction → Prop
  | .regWr 0x04 w =>
    s.pend ≠ none ∨ legal w = false ∨
      (s.ovf = true ∧ ((∃ c, w = encode (.place c)) ∨ w = encode .emit ∨ w = encode .packbin ∨ w = encode .pack))
  | .regWr 0x0C _ => s.pend ≠ none
  | .regWr 0x10 _ => s.pend ≠ none
  | .cmWr _ _ => s.pend ≠ none
  | _ => False

end Sys2Proof
end

