-- ==== Sys2Proof/Certificates/Slice0/Obligations.lean ====
section
/-! DEFINITION. What is stated of HBP for the provers. "The engine's turn" is `engineTurn s`: an operation is pending and
its completion is the next step. A statement about an input holds in every state in which that input is taken, that is,
in every state where it is not the engine's turn. -/

open Sys2Proof
open Sys2Proof.Machine

/-! ### Command words (30_encoding.md) -/

/-- The legal words of R94, read one by one. -/
def Obligations.DecoderReadsTheFourteenLegalWords : Prop :=
  decode 0x00000000 = .ok .nop ∧ decode 0x00000001 = .ok .aclr ∧
  decode 0x00000002 = .ok (.place 0) ∧ decode 0x00000012 = .ok (.place 1) ∧
  decode 0x00000022 = .ok (.place 2) ∧ decode 0x00000032 = .ok (.place 3) ∧
  decode 0x00000042 = .ok (.place 4) ∧ decode 0x00000052 = .ok (.place 5) ∧
  decode 0x00000062 = .ok (.place 6) ∧ decode 0x00000072 = .ok (.place 7) ∧
  decode 0x00000003 = .ok .emit ∧ decode 0x00000004 = .ok .packbin ∧
  decode 0x00000005 = .ok .pack ∧ decode 0x00000006 = .ok .eclr

/-- R94, R95: a word is legal exactly when it is one of the fourteen, which is the formula of R95; any other word, written
to CMD, sets CMD_ERR and changes nothing else. -/
def Obligations.WordsOutsideTheListAreRejected : Prop :=
  (∀ w : Word, legal w = true ↔
    w ∈ ([0x00000000, 0x00000001, 0x00000002, 0x00000012, 0x00000022, 0x00000032, 0x00000042, 0x00000052,
          0x00000062, 0x00000072, 0x00000003, 0x00000004, 0x00000005, 0x00000006] : List Word)) ∧
  (∀ w : Word, legal w = true ↔
    w.extractLsb' 7 25 = 0 ∧ (w.extractLsb' 0 4).toNat ≤ 6 ∧ (w.extractLsb' 0 4 = 2 ∨ w.extractLsb' 4 3 = 0)) ∧
  ∀ (s : State) (w : Word) (rest : List Input), legal w = false → engineTurn s = false →
    s.inbox = .tx (.regWr 0x04 w) :: rest → step s = .next { takeInput rest s with cmdErr := true }

/-- R96: decoding is total, and follows the case table on OP. -/
def Obligations.DecodeFollowsTheCaseTable : Prop :=
  ∀ w : Word,
    (legal w = false ↔ ∃ e, decode w = .error e) ∧
    (legal w = true →
      (w.extractLsb' 0 4 = 0x0 → decode w = .ok .nop) ∧
      (w.extractLsb' 0 4 = 0x1 → decode w = .ok .aclr) ∧
      (w.extractLsb' 0 4 = 0x2 → decode w = .ok (.place (w.extractLsb' 4 3))) ∧
      (w.extractLsb' 0 4 = 0x3 → decode w = .ok .emit) ∧
      (w.extractLsb' 0 4 = 0x4 → decode w = .ok .packbin) ∧
      (w.extractLsb' 0 4 = 0x5 → decode w = .ok .pack) ∧
      (w.extractLsb' 0 4 = 0x6 → decode w = .ok .eclr))

/-- Decoding and encoding are inverse to each other, both ways, on every word and every command. -/
def Obligations.DecodeAndEncodeAreInverse : Prop :=
  ∀ (w : Word) (i : Instr), decode w = .ok i ↔ encode i = w

/-! ### Issue, acceptance and rejection (60_exceptions.md R184 to R188) -/

/-- A step with a legal command word first in line runs the decoded command, in the state whose input has been taken; so
does a step from a state in which the word was placed by `withFetchWord` (the model's choice: log entry 7). -/
def Obligations.StepRunsTheDecodedCommand : Prop :=
  ∀ (s : State) (w : Word) (i : Instr), s.pend = none → decode w = .ok i →
    (∀ rest, s.inbox = .tx (.regWr 0x04 w) :: rest → step s = exec i (takeInput rest s)) ∧
    step (s.withFetchWord 32 w.toNat) = exec i (takeInput s.inbox s)

/-- R186: the first case that applies decides: busy, then illegal, then overflow pending, else the command executes. -/
def Obligations.CommandsAreAcceptedInThePriorityOrder : Prop :=
  ∀ (s : State) (w : Word) (rest : List Input), engineTurn s = false → s.inbox = .tx (.regWr 0x04 w) :: rest →
    (s.pend ≠ none → step s = .next { takeInput rest s with cmdErr := true }) ∧
    (s.pend = none → legal w = false → step s = .next { takeInput rest s with cmdErr := true }) ∧
    (s.pend = none → s.ovf = true →
      ((∃ c, decode w = .ok (.place c)) ∨ decode w = .ok .emit ∨ decode w = .ok .packbin ∨ decode w = .ok .pack) →
      step s = .next { takeInput rest s with cmdErr := true }) ∧
    (∀ i, s.pend = none → decode w = .ok i → (s.ovf = false ∨ i = .nop ∨ i = .aclr ∨ i = .eclr) →
      ∃ t, step s = .next t ∧ exec i (takeInput rest s) = .next t ∧ (i ≠ .eclr → t.cmdErr = s.cmdErr))

/-- R184, R185: a transaction is rejected in exactly the cases of the table (`RejectedAccess`), which is when it sets
CMD_ERR, and a rejected one does nothing else. -/
def Obligations.RejectionsAreExactlyTheTableAndSetOnlyCmdErr : Prop :=
  ∀ (s : State) (tr : Transaction) (rest : List Input), engineTurn s = false → s.inbox = .tx tr :: rest →
    tr.wellFormed = true →
    (RejectedAccess s tr → step s = .next { takeInput rest s with cmdErr := true }) ∧
    (s.cmdErr = false → ¬ RejectedAccess s tr → ∃ t, step s = .next t ∧ t.cmdErr = false)

/-! ### The commands (40_record_assembly.md, 41_matrix_packing.md, 42_control.md) -/

/-- R170: NOP. -/
def Obligations.NopChangesNothing : Prop :=
  decode 0x00000000 = .ok .nop ∧
  (∀ s : State, (s.pend = none → exec .nop s = .next s) ∧
    (s.pend ≠ none → exec .nop s = .next { s with cmdErr := true })) ∧
  ∀ (s : State) (rest : List Input), s.pend = none → s.inbox = .tx (.regWr 0x04 0) :: rest →
    step s = .next (takeInput rest s)

/-- R111: ACLR. -/
def Obligations.AclrClearsTheAccumulatorOnly : Prop :=
  decode 0x00000001 = .ok .aclr ∧
  ∀ s : State, (s.pend = none → exec .aclr s = .next { s with acc := 0 }) ∧
    (s.pend ≠ none → exec .aclr s = .next { s with cmdErr := true })

/-- R112, R116, R182: PLACE c, for every camera and every count in DATA: placed, or captured as an overflow, or rejected. -/
def Obligations.PlaceValidatesThenPlacesOrCaptures : Prop :=
  ∀ c : CamIx, decode (0x00000002 ||| (c.setWidth 32 <<< 4)) = .ok (.place c) ∧
    ∀ s : State,
      (s.pend ≠ none ∨ s.ovf = true → exec (.place c) s = .next { s with cmdErr := true }) ∧
      (s.pend = none → s.ovf = false → s.data.toNat < 2 ^ 21 →
        exec (.place c) s = .next { s with acc := s.acc ||| (s.data.setWidth 192 <<< (c.toNat * 21)) }) ∧
      (s.pend = none → s.ovf = false → 2 ^ 21 ≤ s.data.toNat →
        exec (.place c) s =
          .next { s with ovf := true, errCam := c, errBin := s.bin, errVal := s.data, acc := 0 })

/-- R113: an accepted PLACE of a count that fits ORs bit j of the count into bit 21c + j, j = 0..20, and changes no other
bit of acc and nothing else; into a zero field it puts the count itself. -/
def Obligations.PlacementSetsExactlyTheFieldBits : Prop :=
  ∀ (s : State) (c : CamIx), s.pend = none → s.ovf = false → s.data.toNat < 2 ^ 21 →
    ∃ t, exec (.place c) s = .next t ∧ t = { s with acc := t.acc } ∧
      (∀ j, j < 21 → t.acc.getLsbD (c.toNat * 21 + j) = (s.acc.getLsbD (c.toNat * 21 + j) || s.data.getLsbD j)) ∧
      (∀ i, ¬ (c.toNat * 21 ≤ i ∧ i < c.toNat * 21 + 21) → t.acc.getLsbD i = s.acc.getLsbD i) ∧
      (s.acc.extractLsb' (c.toNat * 21) 21 = 0 → t.acc.extractLsb' (c.toNat * 21) 21 = s.data.extractLsb' 0 21)

/-- R114: placement on the six storage words, with the straddle into the next word, is the placement of R113. -/
def Obligations.PlacementOnStorageWordsAgrees : Prop :=
  ∀ (a : Accum) (c : CamIx) (v : Word), fits v = true →
    accWords (placeField a c v) = placeWords (accWords a) c v ∧ (bitPos c % 32 > 11 → bitPos c / 32 + 1 < 6)

/-- R115: the table of every camera's first bit, storage word, offset, straddle, and the bits in words k and k + 1; the
eight fields cover bits 0..167 with no gap and no overlap. -/
def Obligations.StraddleTable : Prop :=
  cameras.map (fun c => (bitPos c, bitPos c / 32, bitPos c % 32, decide (bitPos c % 32 > 11),
      min 21 (32 - bitPos c % 32), 21 - min 21 (32 - bitPos c % 32))) =
    [(0, 0, 0, false, 21, 0), (21, 0, 21, true, 11, 10), (42, 1, 10, false, 21, 0), (63, 1, 31, true, 1, 20),
     (84, 2, 20, true, 12, 9), (105, 3, 9, false, 21, 0), (126, 3, 30, true, 2, 19), (147, 4, 19, true, 13, 8)] ∧
  (∀ i, i < 168 → ∃ c : CamIx, (bitPos c ≤ i ∧ i < bitPos c + 21) ∧
    ∀ d : CamIx, bitPos d ≤ i ∧ i < bitPos d + 21 → d = c) ∧
  ∀ (c : CamIx) (i : Nat), bitPos c ≤ i ∧ i < bitPos c + 21 → i < 168

/-- R117: placements give the same accumulator in every order, and a second placement of one camera leaves the OR of the
two values in its field. -/
def Obligations.PlacementsCommuteAndAccumulate : Prop :=
  (∀ (a : Accum) (xs ys : List (CamIx × Word)), xs.Perm ys →
    xs.foldl (fun a p => placeField a p.1 p.2) a = ys.foldl (fun a p => placeField a p.1 p.2) a) ∧
  ∀ (a : Accum) (c : CamIx) (v w : Word), fits v = true → fits w = true → a.extractLsb' (c.toNat * 21) 21 = 0 →
    (placeField (placeField a c v) c w).extractLsb' (c.toNat * 21) 21 = (v ||| w).extractLsb' 0 21

/-- R118: EMIT stores the 21 bytes of the accumulator at PB index 21 x BIN and changes nothing else. -/
def Obligations.EmitStoresTheRecordAtItsBin : Prop :=
  decode 0x00000003 = .ok .emit ∧
  ∀ s : State,
    (s.pend ≠ none ∨ s.ovf = true → exec .emit s = .next { s with cmdErr := true }) ∧
    (s.pend = none → s.ovf = false →
      ∃ t, exec .emit s = .next t ∧ t = { s with pb := t.pb } ∧
        (∀ k, k < 21 → t.pbByte (s.bin.toNat * 21 + k) = s.acc.extractLsb' (8 * k) 8) ∧
        ∀ j, ¬ (s.bin.toNat * 21 ≤ j ∧ j < s.bin.toNat * 21 + 21) → t.pbByte j = s.pbByte j)

/-- R70, R119: byte k of a record is bits 8k..8k+7 of the accumulator, which is what the storage words hold there; so bit
i of the record lands in byte i / 8, at bit i mod 8. -/
def Obligations.RecordBytesAreLittleEndian : Prop :=
  ∀ a : Accum,
    (∀ k, k < 21 → (serialize a)[k]? = some (a.extractLsb' (8 * k) 8) ∧
      a.extractLsb' (8 * k) 8 = (accWord a (k / 4)).extractLsb' (8 * (k % 4)) 8) ∧
    (∀ i, i < 168 → ∃ byte, (serialize a)[i / 8]? = some byte ∧ byte.getLsbD (i % 8) = a.getLsbD i) ∧
    (serialize a).length = 21

/-- R120: two accumulators that differ in bits 168..191 alone are emitted as the same bytes. -/
def Obligations.UnusedAccumulatorBitsAreNeverEmitted : Prop :=
  ∀ s s' : State, s.pend = none → s.ovf = false → s' = { s with acc := s'.acc } →
    s.acc.extractLsb' 0 168 = s'.acc.extractLsb' 0 168 →
    ∃ t t', exec .emit s = .next t ∧ exec .emit s' = .next t' ∧ t.pb = t'.pb

/-- R144: acceptance of PACKBIN. Only the model's own counters beside `pend` and DONE may differ. -/
def Obligations.PackbinAcceptanceCapturesTheBin : Prop :=
  decode 0x00000004 = .ok .packbin ∧
  ∀ s : State,
    (s.pend ≠ none ∨ s.ovf = true → exec .packbin s = .next { s with cmdErr := true }) ∧
    (s.pend = none → s.ovf = false →
      ∃ t, exec .packbin s = .next t ∧
        t = { s with pend := some (.packbin s.bin), done := false, wait := t.wait, longs := t.longs } ∧
        (s.cmdErr = false → statusWord t = 0x00000001))

/-- R146: acceptance of PACK. Only the model's own counters beside `pend` and DONE may differ. -/
def Obligations.PackAcceptanceSetsBusy : Prop :=
  decode 0x00000005 = .ok .pack ∧
  ∀ s : State,
    (s.pend ≠ none ∨ s.ovf = true → exec .pack s = .next { s with cmdErr := true }) ∧
    (s.pend = none → s.ovf = false →
      ∃ t, exec .pack s = .next t ∧
        t = { s with pend := some .pack, done := false, wait := t.wait, longs := t.longs } ∧
        (s.cmdErr = false → statusWord t = 0x00000001))

/-- R171: ECLR. -/
def Obligations.EclrClearsTheErrorState : Prop :=
  decode 0x00000006 = .ok .eclr ∧
  ∀ s : State,
    (s.pend = none → exec .eclr s =
      .next { s with ovf := false, cmdErr := false, done := false, errCam := 0, errBin := 0, errVal := 0 }) ∧
    (s.pend ≠ none → exec .eclr s = .next { s with cmdErr := true })

/-! ### Completion of the long commands (41_matrix_packing.md) -/

/-- R142: the record of a bin whose counts all fit holds count c in bits 21c..21c+20 and nothing above bit 167; it is the OR
of the shifted counts in any order; and ACLR followed by PLACE of the eight counts in any order leaves it in acc. -/
def Obligations.RecordHoldsTheEightCounts : Prop :=
  ∀ (s : State) (b : BinIx), (∀ c, fits (s.count c b) = true) →
    (∀ c : CamIx, (record s b).extractLsb' (21 * c.toNat) 21 = (s.count c b).extractLsb' 0 21) ∧
    (record s b).extractLsb' 168 24 = 0 ∧
    ∀ order : List CamIx, order.Perm cameras →
      order.foldl (fun a c => a ||| ((s.count c b).setWidth 192 <<< (c.toNat * 21))) 0 = record s b ∧
      (s.pend = none → s.ovf = false →
        ∃ t u, exec .aclr s = .next t ∧ assemble (matrixOf s) b order t = .next u ∧ u.acc = record s b)

/-- R143: the first offending count of a bin is the least camera's, that of the matrix the first in bin order and then in
camera order. -/
def Obligations.FirstOffendingCountIsInBinThenCameraOrder : Prop :=
  ∀ s : State,
    (∀ b c, firstBad s b = some c ↔
      2 ^ 21 ≤ (s.count c b).toNat ∧ ∀ d : CamIx, d < c → (s.count d b).toNat < 2 ^ 21) ∧
    (∀ b, firstBad s b = none ↔ ∀ c, (s.count c b).toNat < 2 ^ 21) ∧
    (∀ b c, firstBadAll s = some (b, c) ↔
      2 ^ 21 ≤ (s.count c b).toNat ∧
        ∀ (b' : BinIx) (c' : CamIx), b' < b ∨ (b' = b ∧ c' < c) → (s.count c' b').toNat < 2 ^ 21) ∧
    (firstBadAll s = none ↔ ∀ c b, (s.count c b).toNat < 2 ^ 21)

/-- R145: the completion of PACKBIN. The least camera whose count does not fit is captured and PB is left alone; or the
record goes to PB and to acc. -/
def Obligations.PackbinCompletesAllOrNothing : Prop :=
  ∀ (s : State) (b : BinIx), s.pend = some (.packbin b) → engineTurn s = true →
    (∀ c : CamIx, 2 ^ 21 ≤ (s.count c b).toNat → (∀ d : CamIx, d < c → (s.count d b).toNat < 2 ^ 21) →
      ∃ n, step s = .next { s with
        ovf := true, errCam := c, errBin := b, errVal := s.count c b, acc := 0, pend := none, wait := n }) ∧
    ((∀ c, (s.count c b).toNat < 2 ^ 21) →
      ∃ t, step s = .next t ∧
        t = { s with pb := t.pb, acc := record s b, done := true, pend := none, wait := t.wait } ∧
        (∀ k, k < 21 → t.pbByte (b.toNat * 21 + k) = (record s b).extractLsb' (8 * k) 8) ∧
        ∀ j, ¬ (b.toNat * 21 ≤ j ∧ j < b.toNat * 21 + 21) → t.pbByte j = s.pbByte j)

/-- R147: the completion of PACK. The first offending count in bin-then-camera order is captured and PB is left alone; or
all 1024 records go to PB and the last of them to acc. -/
def Obligations.PackCompletesAllOrNothing : Prop :=
  ∀ s : State, s.pend = some .pack → engineTurn s = true →
    (∀ (b : BinIx) (c : CamIx), 2 ^ 21 ≤ (s.count c b).toNat →
      (∀ (b' : BinIx) (c' : CamIx), b' < b ∨ (b' = b ∧ c' < c) → (s.count c' b').toNat < 2 ^ 21) →
      ∃ n, step s = .next { s with
        ovf := true, errCam := c, errBin := b, errVal := s.count c b, acc := 0, pend := none, wait := n }) ∧
    ((∀ c b, (s.count c b).toNat < 2 ^ 21) →
      ∃ t, step s = .next t ∧
        t = { s with pb := t.pb, acc := record s 1023, done := true, pend := none, wait := t.wait } ∧
        ∀ (b : BinIx) (k : Nat), k < 21 → t.pbByte (b.toNat * 21 + k) = (record s b).extractLsb' (8 * k) 8)

/-- R64, R70, R142 joined: after a successful PACK, bit m of PB byte j is bit p mod 21 of the count of camera p / 21 at
bin j / 21, where p = 8 (j mod 21) + m. -/
def Obligations.PackPutsEveryCountBitInItsPlace : Prop :=
  ∀ s : State, s.pend = some .pack → engineTurn s = true → (∀ c b, (s.count c b).toNat < 2 ^ 21) →
    ∃ t, step s = .next t ∧ ∀ j m, j < 21504 → m < 8 →
      (t.pbByte j).getLsbD m =
        (s.count (BitVec.ofNat 3 ((8 * (j % 21) + m) / 21)) (BitVec.ofNat 10 (j / 21))).getLsbD ((8 * (j % 21) + m) % 21)

/-- R148: PACK's completion answers what the source's `pack` answers on the matrix in CM: its buffer in PB with DONE, or
its error captured with OVF and PB as it was. -/
def Obligations.PackAnswersAsTheSourceDoes : Prop :=
  ∀ s : State, Inv s → s.pend = some .pack → engineTurn s = true →
    (∀ buf, sourcePack (matrixOf s) = .ok buf →
      ∃ t, step s = .next t ∧ t.done = true ∧ t.ovf = false ∧ buf.length = 21504 ∧
        ∀ j, j < 21504 → buf[j]? = some (t.pbByte j)) ∧
    (∀ e, sourcePack (matrixOf s) = .error e →
      ∃ t, step s = .next t ∧ t.done = false ∧ t.ovf = true ∧
        t.errCam = e.camera ∧ t.errBin = e.bin ∧ t.errVal = e.value ∧ ∀ j, t.pbByte j = s.pbByte j)

/-- The round trip of 95_test_vectors.md 1.5: unpacking PB after a successful PACK gives every count back. -/
def Obligations.UnpackingAPackGivesTheCountsBack : Prop :=
  ∀ s : State, s.pend = some .pack → engineTurn s = true → (∀ c b, (s.count c b).toNat < 2 ^ 21) →
    ∃ t, step s = .next t ∧ ∀ (c : CamIx) (b : BinIx), unpack t.pbByte c b = (s.count c b).toNat

/-- R149: the bytes PACKBIN writes for a bin are those PACK writes for it, in any two states that agree on the eight counts
of that bin. -/
def Obligations.PackingABinIsIndependentOfTheOthers : Prop :=
  ∀ (s s' : State) (b : BinIx), s.pend = some (.packbin b) → s'.pend = some .pack →
    engineTurn s = true → engineTurn s' = true →
    (∀ c, s.count c b = s'.count c b) → (∀ c b', (s'.count c b').toNat < 2 ^ 21) →
    ∃ t t', step s = .next t ∧ step s' = .next t' ∧
      ∀ k, k < 21 → t.pbByte (b.toNat * 21 + k) = t'.pbByte (b.toNat * 21 + k)

/-- R140, R150: a pending operation comes to its completion step after n other steps, n at most `wait`, unless a reset comes
first (that a countdown `wait` holds the number is the model's choice: log entry 2); and in every state on the way, the last
included, CM, BIN, DATA, PB, acc and the operation itself stand as they were. -/
def Obligations.APendingOperationReachesItsCompletion : Prop :=
  ∀ s : State, s.pend ≠ none → InputsInside s.inbox → Input.reset ∉ s.inbox →
    ∃ n, n ≤ s.wait ∧
      (∀ m, m ≤ n → ∃ v, Host.Core.run core m s = .next v ∧ v.pend = s.pend ∧ v.cm = s.cm ∧ v.pb = s.pb ∧
        v.epoch = s.epoch ∧ v.bin = s.bin ∧ v.data = s.data ∧ v.acc = s.acc) ∧
      ∃ u t, Host.Core.run core n s = .next u ∧ engineTurn u = true ∧ step u = .next t ∧ t.pend = none

/-- R152: the result of a long command depends on CM, PB and the captured operand alone: not on acc, DATA, BIN, CMD_ERR or
how long it took. -/
def Obligations.ALongCommandsResultDependsOnItsInputsAlone : Prop :=
  ∀ s s' : State, Inv s → Inv s' → s.pend ≠ none → s'.pend = s.pend → engineTurn s = true → engineTurn s' = true →
    (∀ i, s'.cmWord i = s.cmWord i) → (∀ j, s'.pbByte j = s.pbByte j) →
    ∃ t t', step s = .next t ∧ step s' = .next t' ∧ (∀ j, t'.pbByte j = t.pbByte j) ∧ t'.acc = t.acc ∧
      t'.done = t.done ∧ t'.ovf = t.ovf ∧ t'.errCam = t.errCam ∧ t'.errBin = t.errBin ∧ t'.errVal = t.errVal

/-- R83, R151: a successful PACK leaves PB holding exactly the indices 0..21,503, each once (PB as the list of its written
cells is the model's choice: log entry 3). -/
def Obligations.PackWritesEveryByteOfThePackedBuffer : Prop :=
  ∀ s : State, Inv s → s.pend = some .pack → engineTurn s = true → (∀ c b, (s.count c b).toNat < 2 ^ 21) →
    ∃ t, step s = .next t ∧ t.pb.map Prod.fst = List.range 21504

/-! ### The host interface (10_state.md, 20_memory.md) -/

/-- R24, R26, R27, R31, R43: what a register read returns in each of the 16 slots; it changes nothing
but the list of what the host has read (the model's own: log entry 4). -/
def Obligations.RegisterReadsReturnTheWindow : Prop :=
  ∀ (s : State) (rest : List Input) (off : Nat) (v : Word), engineTurn s = false →
    s.inbox = .tx (.regRd off) :: rest →
    (off, v) ∈ [(0x00, 0x04000815), (0x04, 0), (0x08, statusWord s), (0x0C, s.data), (0x10, binWord s),
      (0x14, errLocWord s), (0x18, s.errVal), (0x1C, 0),
      (0x20, if s.pend = none then s.acc.extractLsb' 0 32 else 0),
      (0x24, if s.pend = none then s.acc.extractLsb' 32 32 else 0),
      (0x28, if s.pend = none then s.acc.extractLsb' 64 32 else 0),
      (0x2C, if s.pend = none then s.acc.extractLsb' 96 32 else 0),
      (0x30, if s.pend = none then s.acc.extractLsb' 128 32 else 0),
      (0x34, if s.pend = none then s.acc.extractLsb' 160 32 else 0),
      (0x38, 0), (0x3C, 0)] →
    step s = .next { takeInput rest s with replies := .word v :: s.replies }

/-- R33, R38, R40, R41, R30: the bits of STATUS, BIN and ERR_LOC; reserved bits read 0, and BUSY reads 1 exactly when an
operation is pending. -/
def Obligations.StatusBinAndErrLocHaveTheirFields : Prop :=
  ∀ s : State,
    ((statusWord s).getLsbD 0 = true ↔ s.pend ≠ none) ∧ (statusWord s).getLsbD 1 = s.done ∧
    (statusWord s).getLsbD 2 = s.ovf ∧ (statusWord s).getLsbD 3 = s.cmdErr ∧ (statusWord s).extractLsb' 4 28 = 0 ∧
    (binWord s).extractLsb' 0 10 = s.bin ∧ (binWord s).extractLsb' 10 22 = 0 ∧
    (errLocWord s).extractLsb' 0 3 = s.errCam ∧ (errLocWord s).extractLsb' 3 13 = 0 ∧
    (errLocWord s).extractLsb' 16 10 = s.errBin ∧ (errLocWord s).extractLsb' 26 6 = 0

/-- R25, R26, R28, R32, R39, R40 in an idle block: DATA stores the word, BIN its low ten bits, CMD issues it, and a write to
an RO or reserved slot does nothing. -/
def Obligations.IdleRegisterWritesStoreIssueOrAreIgnored : Prop :=
  ∀ (s : State) (rest : List Input) (off : Nat) (v : Word), s.pend = none → s.inbox = .tx (.regWr off v) :: rest →
    (off = 0x0C → step s = .next { takeInput rest s with data := v }) ∧
    (off = 0x10 → step s = .next { takeInput rest s with bin := v.extractLsb' 0 10 }) ∧
    (off = 0x04 → ∀ i, decode v = .ok i → step s = exec i (takeInput rest s)) ∧
    (off = 0x04 → ∀ e, decode v = .error e → step s = .next { takeInput rest s with cmdErr := true }) ∧
    (off ∈ [0x00, 0x08, 0x14, 0x18, 0x1C, 0x20, 0x24, 0x28, 0x2C, 0x30, 0x34, 0x38, 0x3C] →
      step s = .next (takeInput rest s))

/-- R62: in an idle block a CM_WR stores the word at its index, any 32-bit value, and changes no other word; while an
operation is pending it is rejected; a CM_RD returns the word, busy or not. -/
def Obligations.CountMemoryReadsBackWhatWasWritten : Prop :=
  ∀ (s : State) (rest : List Input) (i : Nat), i < 8192 → engineTurn s = false →
    (∀ v, s.pend = none → s.inbox = .tx (.cmWr i v) :: rest →
      ∃ t, step s = .next t ∧ t = { takeInput rest s with cm := t.cm } ∧ t.cmWord i = v ∧
        ∀ j, j ≠ i → t.cmWord j = s.cmWord j) ∧
    (∀ v, s.pend ≠ none → s.inbox = .tx (.cmWr i v) :: rest →
      step s = .next { takeInput rest s with cmdErr := true }) ∧
    (s.inbox = .tx (.cmRd i) :: rest →
      step s = .next { takeInput rest s with replies := .word (s.cmWord i) :: s.replies })

/-- R65: a PB_RD returns the byte, and 0 while an operation is pending; no transaction but a command changes PB. -/
def Obligations.PackedBufferReadsAreHiddenWhileBusy : Prop :=
  (∀ (s : State) (rest : List Input) (j : Nat), j < 21504 → engineTurn s = false →
    s.inbox = .tx (.pbRd j) :: rest →
    (s.pend = none → step s = .next { takeInput rest s with replies := .byte (s.pbByte j) :: s.replies }) ∧
    (s.pend ≠ none → step s = .next { takeInput rest s with replies := .byte 0 :: s.replies })) ∧
  ∀ (s t : State) (tr : Transaction), (∀ w, tr ≠ .regWr 0x04 w) → transact tr s = .next t → t.pb = s.pb

/-- R68, R69: a transaction outside the interface is refused, by name. -/
def Obligations.TransactionsOutsideTheInterfaceAreRefused : Prop :=
  ∀ (s : State) (rest : List Input), engineTurn s = false →
    (∀ i, 8191 < i → s.inbox = .tx (.cmRd i) :: rest → step s = .refused (.cmIndexOutside i)) ∧
    (∀ i v, 8191 < i → s.inbox = .tx (.cmWr i v) :: rest → step s = .refused (.cmIndexOutside i)) ∧
    (∀ j, 21503 < j → s.inbox = .tx (.pbRd j) :: rest → step s = .refused (.pbIndexOutside j)) ∧
    (∀ off, off % 4 ≠ 0 ∨ 0x40 ≤ off → s.inbox = .tx (.regRd off) :: rest → step s = .refused (.offsetOutside off)) ∧
    (∀ off v, off % 4 ≠ 0 ∨ 0x40 ≤ off → s.inbox = .tx (.regWr off v) :: rest → step s = .refused (.offsetOutside off))

/-- R84: every input inside the interface is answered, in every state: no step of such a run stops. -/
def Obligations.InputsInsideTheInterfaceAreAlwaysAnswered : Prop :=
  ∀ s : State, InputsInside s.inbox → ∃ t, step s = .next t ∧ InputsInside t.inbox

/-- R192: one privilege level and no protection check. Whether a transaction is allowed is decided by its offset or index alone,
the same in every state: inside the interface it is answered, outside it is refused. -/
def Obligations.EveryTransactionInsideTheInterfaceIsAllowedInEveryState : Prop :=
  ∀ (s : State) (tr : Transaction),
    (tr.wellFormed = true → ∃ t, transact tr s = .next t) ∧
    (tr.wellFormed = false → ∃ r, transact tr s = .refused r)

/-- R76: the busy lock, row by row. -/
def Obligations.BusyLockHoldsWhileAnOperationIsPending : Prop :=
  ∀ (s : State) (rest : List Input), s.pend ≠ none → engineTurn s = false →
    (∀ off v, (off = 0x04 ∨ off = 0x0C ∨ off = 0x10) → s.inbox = .tx (.regWr off v) :: rest →
      step s = .next { takeInput rest s with cmdErr := true }) ∧
    (∀ off v, off % 4 = 0 → off < 0x40 → off ≠ 0x04 → off ≠ 0x0C → off ≠ 0x10 →
      s.inbox = .tx (.regWr off v) :: rest → step s = .next (takeInput rest s)) ∧
    (∀ off, off ∈ [0x20, 0x24, 0x28, 0x2C, 0x30, 0x34] → s.inbox = .tx (.regRd off) :: rest →
      step s = .next { takeInput rest s with replies := .word 0 :: s.replies }) ∧
    (∀ (off : Nat) (v : Word), (off, v) ∈ [(0x00, 0x04000815), (0x04, 0), (0x08, statusWord s), (0x0C, s.data), (0x10, binWord s),
        (0x14, errLocWord s), (0x18, s.errVal), (0x1C, 0), (0x38, 0), (0x3C, 0)] →
      s.inbox = .tx (.regRd off) :: rest → step s = .next { takeInput rest s with replies := .word v :: s.replies }) ∧
    (∀ i v, i < 8192 → s.inbox = .tx (.cmWr i v) :: rest → step s = .next { takeInput rest s with cmdErr := true }) ∧
    (∀ i, i < 8192 → s.inbox = .tx (.cmRd i) :: rest →
      step s = .next { takeInput rest s with replies := .word (s.cmWord i) :: s.replies }) ∧
    (∀ j, j < 21504 → s.inbox = .tx (.pbRd j) :: rest →
      step s = .next { takeInput rest s with replies := .byte 0 :: s.replies })

/-- R75: a read adds its answer to what the host has read and changes nothing else, and every write except to CMD may be
repeated without further effect. -/
def Obligations.ReadsAreRepeatableAndWritesIdempotent : Prop :=
  (∀ (s : State) (tr : Transaction), tr.wellFormed = true →
    ((∃ off, tr = .regRd off) ∨ (∃ i, tr = .cmRd i) ∨ (∃ j, tr = .pbRd j)) →
    ∃ r, transact tr s = .next { s with replies := r :: s.replies } ∧
      transact tr { s with replies := r :: s.replies } = .next { s with replies := r :: r :: s.replies }) ∧
  ∀ (s : State) (tr : Transaction), tr.wellFormed = true →
    ((∃ off v, off ≠ 0x04 ∧ tr = .regWr off v) ∨ (∃ i v, tr = .cmWr i v)) →
    ∃ t, transact tr s = .next t ∧ transact tr t = .next t

/-! ### Whole-machine rules: what can change what -/

/-- R66: PB bytes change only by an EMIT, by a successful PACKBIN or PACK, and by reset. -/
def Obligations.OnlyThreeCommandsAndResetWriteThePackedBuffer : Prop :=
  ∀ (s t : State) (j : Nat), step s = .next t → t.pbByte j ≠ s.pbByte j →
    (∃ b, s.pend = some (.packbin b) ∧ engineTurn s = true ∧ (∀ c, fits (s.count c b) = true) ∧
      b.toNat * 21 ≤ j ∧ j < b.toNat * 21 + 21) ∨
    (s.pend = some .pack ∧ engineTurn s = true ∧ (∀ c b, fits (s.count c b) = true) ∧ j < 21504) ∨
    (∃ rest, s.inbox = .tx (.regWr 0x04 (encode .emit)) :: rest ∧ s.pend = none ∧ s.ovf = false ∧
      s.bin.toNat * 21 ≤ j ∧ j < s.bin.toNat * 21 + 21) ∨
    (∃ rest, s.inbox = .reset :: rest)

/-- R63: no command and no completion writes CM; a CM word changes only by a CM_WR to it in an idle block, and by reset. -/
def Obligations.NoCommandWritesTheCountMemory : Prop :=
  (∀ (i : Instr) (s t : State), exec i s = .next t → t.cm = s.cm ∧ t.epoch = s.epoch) ∧
  ∀ (s t : State) (i : Nat), step s = .next t → t.cmWord i ≠ s.cmWord i →
    (∃ rest v, s.inbox = .tx (.cmWr i v) :: rest ∧ s.pend = none ∧ t.cmWord i = v) ∨ (∃ rest, s.inbox = .reset :: rest)

/-- R21, R39, R40: no command and no completion changes DATA or BIN; they change only by a write to them in an idle block,
and by reset. -/
def Obligations.OnlyTheHostChangesDataAndBin : Prop :=
  (∀ (i : Instr) (s t : State), exec i s = .next t → t.data = s.data ∧ t.bin = s.bin) ∧
  ∀ s t : State, step s = .next t →
    (t.data ≠ s.data → (∃ rest, s.inbox = .tx (.regWr 0x0C t.data) :: rest ∧ s.pend = none) ∨
      ∃ rest, s.inbox = .reset :: rest) ∧
    (t.bin ≠ s.bin → (∃ rest v, s.inbox = .tx (.regWr 0x10 v) :: rest ∧ s.pend = none ∧ t.bin = v.extractLsb' 0 10) ∨
      ∃ rest, s.inbox = .reset :: rest)

/-- R44: what can change the accumulator. -/
def Obligations.OnlyTheListedEventsWriteTheAccumulator : Prop :=
  ∀ s t : State, step s = .next t → t.acc ≠ s.acc →
    (engineTurn s = true ∧ s.pend ≠ none) ∨
    (∃ rest, s.inbox = .tx (.regWr 0x04 (encode .aclr)) :: rest ∧ s.pend = none ∧ t.acc = 0) ∨
    (∃ rest c, s.inbox = .tx (.regWr 0x04 (encode (.place c))) :: rest ∧ s.pend = none ∧ s.ovf = false) ∨
    (∃ rest, s.inbox = .reset :: rest)

/-- R35: what can change DONE. -/
def Obligations.DoneChangesOnlyAsItsRuleSays : Prop :=
  ∀ s t : State, step s = .next t → t.done ≠ s.done →
    (t.done = true ∧ engineTurn s = true ∧ t.ovf = s.ovf) ∨
    (t.done = false ∧ ∃ rest, s.pend = none ∧
      (s.inbox = .tx (.regWr 0x04 (encode .packbin)) :: rest ∨ s.inbox = .tx (.regWr 0x04 (encode .pack)) :: rest ∨
       s.inbox = .tx (.regWr 0x04 (encode .eclr)) :: rest)) ∨
    (t.done = false ∧ ∃ rest, s.inbox = .reset :: rest)

/-- R30, R34: `pend` is set only by the acceptance of PACKBIN, which captures BIN, or of PACK, and cleared only by a
completion step or by reset. -/
def Obligations.PendingIsSetByAcceptanceAndClearedByCompletion : Prop :=
  ∀ s t : State, step s = .next t → t.pend ≠ s.pend →
    (s.pend = none ∧ s.ovf = false ∧ ∃ rest,
      (s.inbox = .tx (.regWr 0x04 (encode .packbin)) :: rest ∧ t.pend = some (.packbin s.bin)) ∨
      (s.inbox = .tx (.regWr 0x04 (encode .pack)) :: rest ∧ t.pend = some .pack)) ∨
    (engineTurn s = true ∧ t.pend = none) ∨
    (t.pend = none ∧ ∃ rest, s.inbox = .reset :: rest)

/-- R36, R37: OVF and CMD_ERR are sticky: only an accepted ECLR or a reset clears them. While OVF stays 1, ERR_LOC and
ERR_VAL keep the first overflow. -/
def Obligations.OverflowAndCommandErrorAreSticky : Prop :=
  ∀ s t : State, step s = .next t →
    ((s.ovf = true ∧ t.ovf = false) ∨ (s.cmdErr = true ∧ t.cmdErr = false) →
      (∃ rest, s.inbox = .tx (.regWr 0x04 (encode .eclr)) :: rest ∧ s.pend = none) ∨
        ∃ rest, s.inbox = .reset :: rest) ∧
    (Inv s → s.ovf = true → t.ovf = true → t.errCam = s.errCam ∧ t.errBin = s.errBin ∧ t.errVal = s.errVal)

/-- R181, R182, R183: whichever command raises it, a FieldOverflow leaves the offending value and its place in the error
registers, clears acc, ends the command and writes no byte of PB and no count. -/
def Obligations.EveryOverflowIsCapturedAndWritesNothing : Prop :=
  ∀ s t : State, step s = .next t → s.ovf = false → t.ovf = true →
    2 ^ 21 ≤ t.errVal.toNat ∧ t.acc = 0 ∧ t.pend = none ∧ (∀ j, t.pbByte j = s.pbByte j) ∧
    (∀ i, t.cmWord i = s.cmWord i) ∧ t.data = s.data ∧ t.bin = s.bin ∧ t.done = s.done ∧ t.cmdErr = s.cmdErr ∧
    ((engineTurn s = true ∧ t.errVal = s.count t.errCam t.errBin) ∨
     (engineTurn s = false ∧ t.errVal = s.data ∧ t.errBin = s.bin ∧
       ∃ rest, s.inbox = .tx (.regWr 0x04 (encode (.place t.errCam))) :: rest))

/-! ### Reset, idling and the invariant -/

/-- R47, R211, R212: after reset every register, flag and acc is 0 and nothing is pending, whatever was pending before, and
every cell of CM and PB holds the draw of this reset (how the draws are named is the model's choice: log entry 3). -/
def Obligations.ResetLeavesTheTableOfResetValues : Prop :=
  (∀ (s : State) (rest : List Input), engineTurn s = false → s.inbox = .reset :: rest →
    ∃ t, step s = .next t ∧ statusWord t = 0 ∧ t.data = 0 ∧ binWord t = 0 ∧ errLocWord t = 0 ∧ t.errVal = 0 ∧ t.acc = 0 ∧
      t.pend = none ∧ (∀ i, t.cmWord i = Config.initCm (s.epoch + 1) i) ∧
      ∀ j, t.pbByte j = Config.initPb (s.epoch + 1) j) ∧
  statusWord State.reset = 0 ∧ State.reset.data = 0 ∧ binWord State.reset = 0 ∧ errLocWord State.reset = 0 ∧
  State.reset.errVal = 0 ∧ State.reset.acc = 0 ∧ State.reset.pend = none

/-- R213: after reset the block is idle with no error pending, and accepts every command at once. -/
def Obligations.ResetBlockAcceptsEveryCommand : Prop :=
  ∀ (s t : State) (rest : List Input), engineTurn s = false → s.inbox = .reset :: rest → step s = .next t →
    t.pend = none ∧ t.ovf = false ∧ t.cmdErr = false ∧ ∀ i : Instr, ∃ u, exec i t = .next u ∧ u.cmdErr = false

/-- R223: when the host has issued its last transaction and nothing is pending, the state stays (the idle step is the
model's choice: log entry 1). -/
def Obligations.AFinishedRunStaysFinished : Prop :=
  ∀ s : State, Finished s → step s = .next s

/-- The invariant holds right after reset, whatever the host will do. -/
def Obligations.ResetMeetsTheInvariant : Prop :=
  ∀ xs : List Input, Inv { State.reset with inbox := xs }

/-- Every step, of the host, of the engine or of the reset input, keeps the invariant. -/
def Obligations.EveryStepKeepsTheInvariant : Prop :=
  ∀ s t : State, Inv s → step s = .next t → Inv t

/-- R45: bits 168..191 of the accumulator are 0 in every state that any host program reaches from reset. -/
def Obligations.UnusedAccumulatorBitsAreZeroInEveryReachableState : Prop :=
  ∀ (xs : List Input) (n : Nat) (t : State),
    Host.Core.run core n { State.reset with inbox := xs } = .next t → t.acc.extractLsb' 168 24 = 0

/-! ### Host programs -/

/-- R98: one turn of WAIT reads STATUS, and WAIT is over exactly when BUSY read 0 (as an input of its own: log entry 5). -/
def Obligations.WaitPollsUntilBusyReadsZero : Prop :=
  ∀ (s : State) (rest : List Input), engineTurn s = false → s.inbox = .poll :: rest →
    (s.pend = none → step s = .next { takeInput rest s with replies := .word (statusWord s) :: s.replies }) ∧
    (s.pend ≠ none →
      step s = .next { takeInput rest s with inbox := s.inbox, replies := .word (statusWord s) :: s.replies })

/-- R98, R215: PACKALL, from an idle block with no overflow pending, ends: BUSY reads 0, and either DONE is set and every
count fits or OVF is set and some count does not. (The countdown to the completion and WAIT as an input of its own are the
model's choices: log entries 2 and 5.) -/
def Obligations.PackallEndsWithDoneOrOverflow : Prop :=
  ∀ (s : State) (rest : List Input), s.pend = none → s.ovf = false → s.inbox = asmPackall ++ rest →
    ∃ n t, Host.Core.run core n s = .next t ∧ t.inbox = rest ∧ t.pend = none ∧
      ((t.done = true ∧ t.ovf = false ∧ ∀ c b, fits (s.count c b) = true) ∨
       (t.done = false ∧ t.ovf = true ∧ ∃ c b, fits (s.count c b) = false))

/-- The two outcomes of PG6 (95_test_vectors.md): a CM write issued while a PACK is pending is stored if the completion comes
first and lost if it comes second (the countdown `wait` that tells the two apart is the model's choice: log entry 2). -/
def Obligations.BothSchedulesOfACountWriteAreAllowed : Prop :=
  ∀ (s : State) (i : Nat) (v : Word), i < 8192 → s.pend = some .pack → s.cmdErr = false →
    s.inbox = [.tx (.cmWr i v)] →
    (s.wait = 0 → ∃ t, Host.Core.run core 2 s = .next t ∧ t.pend = none ∧ t.cmdErr = false ∧ t.cmWord i = v) ∧
    (s.wait = 1 → ∃ t, Host.Core.run core 2 s = .next t ∧ t.pend = none ∧ t.cmdErr = true ∧ t.cmWord i = s.cmWord i)
end

