-- ==== Sys2Proof/Laws/State.lean ====
section
/-! SUPPORT. One lemma per field per named update of State, so that no later proof unfolds an update. -/

namespace Sys2Proof.Machine

section raiseFieldOverflow

variable (c : CamIx) (b : BinIx) (v : Word) (s : State)

@[simp] theorem raiseFieldOverflow_data : (raiseFieldOverflow c b v s).data = s.data := rfl
@[simp] theorem raiseFieldOverflow_bin : (raiseFieldOverflow c b v s).bin = s.bin := rfl
@[simp] theorem raiseFieldOverflow_done : (raiseFieldOverflow c b v s).done = s.done := rfl
@[simp] theorem raiseFieldOverflow_ovf : (raiseFieldOverflow c b v s).ovf = true := rfl
@[simp] theorem raiseFieldOverflow_cmdErr : (raiseFieldOverflow c b v s).cmdErr = s.cmdErr := rfl
@[simp] theorem raiseFieldOverflow_errCam : (raiseFieldOverflow c b v s).errCam = c := rfl
@[simp] theorem raiseFieldOverflow_errBin : (raiseFieldOverflow c b v s).errBin = b := rfl
@[simp] theorem raiseFieldOverflow_errVal : (raiseFieldOverflow c b v s).errVal = v := rfl
@[simp] theorem raiseFieldOverflow_acc : (raiseFieldOverflow c b v s).acc = 0 := rfl
@[simp] theorem raiseFieldOverflow_pend : (raiseFieldOverflow c b v s).pend = s.pend := rfl
@[simp] theorem raiseFieldOverflow_cm : (raiseFieldOverflow c b v s).cm = s.cm := rfl
@[simp] theorem raiseFieldOverflow_pb : (raiseFieldOverflow c b v s).pb = s.pb := rfl
@[simp] theorem raiseFieldOverflow_epoch : (raiseFieldOverflow c b v s).epoch = s.epoch := rfl
@[simp] theorem raiseFieldOverflow_wait : (raiseFieldOverflow c b v s).wait = s.wait := rfl
@[simp] theorem raiseFieldOverflow_longs : (raiseFieldOverflow c b v s).longs = s.longs := rfl
@[simp] theorem raiseFieldOverflow_inbox : (raiseFieldOverflow c b v s).inbox = s.inbox := rfl
@[simp] theorem raiseFieldOverflow_replies : (raiseFieldOverflow c b v s).replies = s.replies := rfl

end raiseFieldOverflow

section raiseCmdReject

variable (r : RejectReason) (s : State)

@[simp] theorem raiseCmdReject_data : (raiseCmdReject r s).data = s.data := rfl
@[simp] theorem raiseCmdReject_bin : (raiseCmdReject r s).bin = s.bin := rfl
@[simp] theorem raiseCmdReject_done : (raiseCmdReject r s).done = s.done := rfl
@[simp] theorem raiseCmdReject_ovf : (raiseCmdReject r s).ovf = s.ovf := rfl
@[simp] theorem raiseCmdReject_cmdErr : (raiseCmdReject r s).cmdErr = true := rfl
@[simp] theorem raiseCmdReject_errCam : (raiseCmdReject r s).errCam = s.errCam := rfl
@[simp] theorem raiseCmdReject_errBin : (raiseCmdReject r s).errBin = s.errBin := rfl
@[simp] theorem raiseCmdReject_errVal : (raiseCmdReject r s).errVal = s.errVal := rfl
@[simp] theorem raiseCmdReject_acc : (raiseCmdReject r s).acc = s.acc := rfl
@[simp] theorem raiseCmdReject_pend : (raiseCmdReject r s).pend = s.pend := rfl
@[simp] theorem raiseCmdReject_cm : (raiseCmdReject r s).cm = s.cm := rfl
@[simp] theorem raiseCmdReject_pb : (raiseCmdReject r s).pb = s.pb := rfl
@[simp] theorem raiseCmdReject_epoch : (raiseCmdReject r s).epoch = s.epoch := rfl
@[simp] theorem raiseCmdReject_wait : (raiseCmdReject r s).wait = s.wait := rfl
@[simp] theorem raiseCmdReject_longs : (raiseCmdReject r s).longs = s.longs := rfl
@[simp] theorem raiseCmdReject_inbox : (raiseCmdReject r s).inbox = s.inbox := rfl
@[simp] theorem raiseCmdReject_replies : (raiseCmdReject r s).replies = s.replies := rfl

end raiseCmdReject

section clearErrors

variable (s : State)

@[simp] theorem clearErrors_data : (clearErrors s).data = s.data := rfl
@[simp] theorem clearErrors_bin : (clearErrors s).bin = s.bin := rfl
@[simp] theorem clearErrors_done : (clearErrors s).done = false := rfl
@[simp] theorem clearErrors_ovf : (clearErrors s).ovf = false := rfl
@[simp] theorem clearErrors_cmdErr : (clearErrors s).cmdErr = false := rfl
@[simp] theorem clearErrors_errCam : (clearErrors s).errCam = 0 := rfl
@[simp] theorem clearErrors_errBin : (clearErrors s).errBin = 0 := rfl
@[simp] theorem clearErrors_errVal : (clearErrors s).errVal = 0 := rfl
@[simp] theorem clearErrors_acc : (clearErrors s).acc = s.acc := rfl
@[simp] theorem clearErrors_pend : (clearErrors s).pend = s.pend := rfl
@[simp] theorem clearErrors_cm : (clearErrors s).cm = s.cm := rfl
@[simp] theorem clearErrors_pb : (clearErrors s).pb = s.pb := rfl
@[simp] theorem clearErrors_epoch : (clearErrors s).epoch = s.epoch := rfl
@[simp] theorem clearErrors_wait : (clearErrors s).wait = s.wait := rfl
@[simp] theorem clearErrors_longs : (clearErrors s).longs = s.longs := rfl
@[simp] theorem clearErrors_inbox : (clearErrors s).inbox = s.inbox := rfl
@[simp] theorem clearErrors_replies : (clearErrors s).replies = s.replies := rfl

end clearErrors

section startLong

variable (op : LongOp) (s : State)

@[simp] theorem startLong_data : (startLong op s).data = s.data := rfl
@[simp] theorem startLong_bin : (startLong op s).bin = s.bin := rfl
@[simp] theorem startLong_done : (startLong op s).done = false := rfl
@[simp] theorem startLong_ovf : (startLong op s).ovf = s.ovf := rfl
@[simp] theorem startLong_cmdErr : (startLong op s).cmdErr = s.cmdErr := rfl
@[simp] theorem startLong_errCam : (startLong op s).errCam = s.errCam := rfl
@[simp] theorem startLong_errBin : (startLong op s).errBin = s.errBin := rfl
@[simp] theorem startLong_errVal : (startLong op s).errVal = s.errVal := rfl
@[simp] theorem startLong_acc : (startLong op s).acc = s.acc := rfl
@[simp] theorem startLong_pend : (startLong op s).pend = some op := rfl
@[simp] theorem startLong_cm : (startLong op s).cm = s.cm := rfl
@[simp] theorem startLong_pb : (startLong op s).pb = s.pb := rfl
@[simp] theorem startLong_epoch : (startLong op s).epoch = s.epoch := rfl
@[simp] theorem startLong_wait : (startLong op s).wait = Config.tLong s.longs := rfl
@[simp] theorem startLong_longs : (startLong op s).longs = s.longs + 1 := rfl
@[simp] theorem startLong_inbox : (startLong op s).inbox = s.inbox := rfl
@[simp] theorem startLong_replies : (startLong op s).replies = s.replies := rfl

end startLong

section finishLong

variable (s : State)

@[simp] theorem finishLong_data : (finishLong s).data = s.data := rfl
@[simp] theorem finishLong_bin : (finishLong s).bin = s.bin := rfl
@[simp] theorem finishLong_done : (finishLong s).done = s.done := rfl
@[simp] theorem finishLong_ovf : (finishLong s).ovf = s.ovf := rfl
@[simp] theorem finishLong_cmdErr : (finishLong s).cmdErr = s.cmdErr := rfl
@[simp] theorem finishLong_errCam : (finishLong s).errCam = s.errCam := rfl
@[simp] theorem finishLong_errBin : (finishLong s).errBin = s.errBin := rfl
@[simp] theorem finishLong_errVal : (finishLong s).errVal = s.errVal := rfl
@[simp] theorem finishLong_acc : (finishLong s).acc = s.acc := rfl
@[simp] theorem finishLong_pend : (finishLong s).pend = none := rfl
@[simp] theorem finishLong_cm : (finishLong s).cm = s.cm := rfl
@[simp] theorem finishLong_pb : (finishLong s).pb = s.pb := rfl
@[simp] theorem finishLong_epoch : (finishLong s).epoch = s.epoch := rfl
@[simp] theorem finishLong_wait : (finishLong s).wait = 0 := rfl
@[simp] theorem finishLong_longs : (finishLong s).longs = s.longs := rfl
@[simp] theorem finishLong_inbox : (finishLong s).inbox = s.inbox := rfl
@[simp] theorem finishLong_replies : (finishLong s).replies = s.replies := rfl

end finishLong

section publish

variable (n : Nat) (bs : List Byte) (a : Accum) (s : State)

@[simp] theorem publish_data : (publish n bs a s).data = s.data := rfl
@[simp] theorem publish_bin : (publish n bs a s).bin = s.bin := rfl
@[simp] theorem publish_done : (publish n bs a s).done = true := rfl
@[simp] theorem publish_ovf : (publish n bs a s).ovf = s.ovf := rfl
@[simp] theorem publish_cmdErr : (publish n bs a s).cmdErr = s.cmdErr := rfl
@[simp] theorem publish_errCam : (publish n bs a s).errCam = s.errCam := rfl
@[simp] theorem publish_errBin : (publish n bs a s).errBin = s.errBin := rfl
@[simp] theorem publish_errVal : (publish n bs a s).errVal = s.errVal := rfl
@[simp] theorem publish_acc : (publish n bs a s).acc = a := rfl
@[simp] theorem publish_pend : (publish n bs a s).pend = s.pend := rfl
@[simp] theorem publish_cm : (publish n bs a s).cm = s.cm := rfl
@[simp] theorem publish_pb : (publish n bs a s).pb = s.pb.write n bs := rfl
@[simp] theorem publish_epoch : (publish n bs a s).epoch = s.epoch := rfl
@[simp] theorem publish_wait : (publish n bs a s).wait = s.wait := rfl
@[simp] theorem publish_longs : (publish n bs a s).longs = s.longs := rfl
@[simp] theorem publish_inbox : (publish n bs a s).inbox = s.inbox := rfl
@[simp] theorem publish_replies : (publish n bs a s).replies = s.replies := rfl

end publish

section takeInput

variable (rest : List Input) (s : State)

@[simp] theorem takeInput_data : (takeInput rest s).data = s.data := rfl
@[simp] theorem takeInput_bin : (takeInput rest s).bin = s.bin := rfl
@[simp] theorem takeInput_done : (takeInput rest s).done = s.done := rfl
@[simp] theorem takeInput_ovf : (takeInput rest s).ovf = s.ovf := rfl
@[simp] theorem takeInput_cmdErr : (takeInput rest s).cmdErr = s.cmdErr := rfl
@[simp] theorem takeInput_errCam : (takeInput rest s).errCam = s.errCam := rfl
@[simp] theorem takeInput_errBin : (takeInput rest s).errBin = s.errBin := rfl
@[simp] theorem takeInput_errVal : (takeInput rest s).errVal = s.errVal := rfl
@[simp] theorem takeInput_acc : (takeInput rest s).acc = s.acc := rfl
@[simp] theorem takeInput_pend : (takeInput rest s).pend = s.pend := rfl
@[simp] theorem takeInput_cm : (takeInput rest s).cm = s.cm := rfl
@[simp] theorem takeInput_pb : (takeInput rest s).pb = s.pb := rfl
@[simp] theorem takeInput_epoch : (takeInput rest s).epoch = s.epoch := rfl
@[simp] theorem takeInput_wait : (takeInput rest s).wait = s.wait - 1 := rfl
@[simp] theorem takeInput_longs : (takeInput rest s).longs = s.longs := rfl
@[simp] theorem takeInput_inbox : (takeInput rest s).inbox = rest := rfl
@[simp] theorem takeInput_replies : (takeInput rest s).replies = s.replies := rfl

end takeInput

section answer

variable (r : Reply) (s : State)

@[simp] theorem answer_data : (answer r s).data = s.data := rfl
@[simp] theorem answer_bin : (answer r s).bin = s.bin := rfl
@[simp] theorem answer_done : (answer r s).done = s.done := rfl
@[simp] theorem answer_ovf : (answer r s).ovf = s.ovf := rfl
@[simp] theorem answer_cmdErr : (answer r s).cmdErr = s.cmdErr := rfl
@[simp] theorem answer_errCam : (answer r s).errCam = s.errCam := rfl
@[simp] theorem answer_errBin : (answer r s).errBin = s.errBin := rfl
@[simp] theorem answer_errVal : (answer r s).errVal = s.errVal := rfl
@[simp] theorem answer_acc : (answer r s).acc = s.acc := rfl
@[simp] theorem answer_pend : (answer r s).pend = s.pend := rfl
@[simp] theorem answer_cm : (answer r s).cm = s.cm := rfl
@[simp] theorem answer_pb : (answer r s).pb = s.pb := rfl
@[simp] theorem answer_epoch : (answer r s).epoch = s.epoch := rfl
@[simp] theorem answer_wait : (answer r s).wait = s.wait := rfl
@[simp] theorem answer_longs : (answer r s).longs = s.longs := rfl
@[simp] theorem answer_inbox : (answer r s).inbox = s.inbox := rfl
@[simp] theorem answer_replies : (answer r s).replies = r :: s.replies := rfl

end answer

section resetEvent

variable (s : State)

@[simp] theorem resetEvent_data : (resetEvent s).data = 0 := rfl
@[simp] theorem resetEvent_bin : (resetEvent s).bin = 0 := rfl
@[simp] theorem resetEvent_done : (resetEvent s).done = false := rfl
@[simp] theorem resetEvent_ovf : (resetEvent s).ovf = false := rfl
@[simp] theorem resetEvent_cmdErr : (resetEvent s).cmdErr = false := rfl
@[simp] theorem resetEvent_errCam : (resetEvent s).errCam = 0 := rfl
@[simp] theorem resetEvent_errBin : (resetEvent s).errBin = 0 := rfl
@[simp] theorem resetEvent_errVal : (resetEvent s).errVal = 0 := rfl
@[simp] theorem resetEvent_acc : (resetEvent s).acc = 0 := rfl
@[simp] theorem resetEvent_pend : (resetEvent s).pend = none := rfl
@[simp] theorem resetEvent_cm : (resetEvent s).cm = [] := rfl
@[simp] theorem resetEvent_pb : (resetEvent s).pb = [] := rfl
@[simp] theorem resetEvent_epoch : (resetEvent s).epoch = s.epoch + 1 := rfl
@[simp] theorem resetEvent_wait : (resetEvent s).wait = 0 := rfl
@[simp] theorem resetEvent_longs : (resetEvent s).longs = s.longs := rfl
@[simp] theorem resetEvent_inbox : (resetEvent s).inbox = s.inbox := rfl
@[simp] theorem resetEvent_replies : (resetEvent s).replies = s.replies := rfl

end resetEvent

end Sys2Proof.Machine
end

