-- ==== Sys2Proof/Laws/Memory.lean ====
section
/-! SUPPORT. The laws of memory: what a read sees after a write, that a write keeps the canonical form, and how CM and
PB read through the named updates of State. -/

namespace Sys2Proof.Machine

variable {w : Nat}

/-! ### Reading -/

theorem Memory.read_append (m n : Memory w) (i : Nat) :
    Memory.read (m ++ n) i = (Memory.read m i).or (Memory.read n i) := by
  induction m with
  | nil => simp [Memory.read]
  | cons c m ih =>
    obtain ⟨j, v⟩ := c
    by_cases h : j = i <;> simp [Memory.read, h, ih]

theorem Memory.read_filter (p : Nat → Bool) (m : Memory w) (i : Nat) :
    Memory.read (m.filter (fun c => p c.1)) i = if p i then Memory.read m i else none := by
  induction m with
  | nil => simp [Memory.read]
  | cons c m ih =>
    obtain ⟨j, v⟩ := c
    by_cases hj : p j <;> by_cases h : j = i
    · subst h; simp [Memory.read, hj]
    · simp [Memory.read, hj, h, ih]
    · subst h; simp [hj, ih]
    · simp [Memory.read, hj, h, ih]

theorem Memory.read_run (vs : List (BitVec w)) (base i : Nat) :
    Memory.read (Memory.run base vs) i = if base ≤ i then vs[i - base]? else none := by
  induction vs generalizing base with
  | nil => simp [Memory.run, Memory.read]
  | cons v vs ih =>
    by_cases h : base = i
    · subst h; simp [Memory.run, Memory.read]
    · by_cases hle : base ≤ i
      · have hs : i - base = (i - (base + 1)) + 1 := by omega
        have hle' : base + 1 ≤ i := by omega
        simp [Memory.run, Memory.read, ih, h, hle, hle', hs]
      · have hle' : ¬ base + 1 ≤ i := by omega
        simp [Memory.run, Memory.read, ih, h, hle, hle']

/-- A read after a write sees the run where it was stored and the old memory elsewhere. -/
theorem Memory.read_write (m : Memory w) (base : Nat) (vs : List (BitVec w)) (i : Nat) :
    Memory.read (m.write base vs) i =
      if base ≤ i ∧ i < base + vs.length then vs[i - base]? else Memory.read m i := by
  have hlow := Memory.read_filter (fun a => decide (a < base)) m i
  have hhigh := Memory.read_filter (fun a => decide (base + vs.length ≤ a)) m i
  simp only [Memory.write, Memory.read_append, Memory.read_run]
  rw [hlow, hhigh]
  by_cases h1 : i < base
  · have : ¬ base ≤ i := by omega
    have h2 : ¬ base + vs.length ≤ i := by omega
    simp [h1, this, h2]
  · by_cases h2 : i < base + vs.length
    · have h3 : base ≤ i := by omega
      have h4 : i - base < vs.length := by omega
      simp [h1, h2, h3, h4]
    · have h3 : base ≤ i := by omega
      have h4 : base + vs.length ≤ i := by omega
      have h5 : vs.length ≤ i - base := by omega
      simp [h1, h2, h3, h4, List.getElem?_eq_none h5]

theorem Memory.read_write_out (m : Memory w) (base : Nat) (vs : List (BitVec w)) (i : Nat)
    (h : ¬ (base ≤ i ∧ i < base + vs.length)) : Memory.read (m.write base vs) i = Memory.read m i := by
  rw [Memory.read_write, if_neg h]

theorem Memory.read_write_in (m : Memory w) (base : Nat) (vs : List (BitVec w)) (k : Nat) (h : k < vs.length) :
    Memory.read (m.write base vs) (base + k) = some vs[k] := by
  rw [Memory.read_write, if_pos ⟨by omega, by omega⟩]
  simp [h]

@[simp] theorem Memory.read_write_one (m : Memory w) (i : Nat) (v : BitVec w) :
    Memory.read (m.write i [v]) i = some v := by
  simpa using Memory.read_write_in m i [v] 0 (by simp)

/-! ### The canonical form -/

theorem Memory.mem_run {vs : List (BitVec w)} {base : Nat} {c : Nat × BitVec w} (h : c ∈ Memory.run base vs) :
    base ≤ c.1 ∧ c.1 < base + vs.length := by
  induction vs generalizing base with
  | nil => simp [Memory.run] at h
  | cons v vs ih =>
    rcases List.mem_cons.1 h with rfl | h
    · simp
    · have := ih h
      simp only [List.length_cons]
      omega

theorem Memory.pairwise_run (vs : List (BitVec w)) (base : Nat) :
    (Memory.run base vs).Pairwise (fun c d => c.1 < d.1) := by
  induction vs generalizing base with
  | nil => simp [Memory.run]
  | cons v vs ih =>
    refine List.pairwise_cons.2 ⟨fun d hd => ?_, ih _⟩
    have := (Memory.mem_run hd).1
    simp only; omega

/-- A write inside the space keeps the canonical form. -/
theorem Memory.write_wf {size base : Nat} {m : Memory w} {vs : List (BitVec w)} (hm : m.wf size)
    (hb : base + vs.length ≤ size) : (m.write base vs).wf size := by
  obtain ⟨hs, hr⟩ := hm
  constructor
  · refine List.pairwise_append.2 ⟨List.pairwise_append.2 ⟨hs.filter _, pairwise_run vs base, ?_⟩, hs.filter _, ?_⟩
    · intro c hc d hd
      have h1 := (List.mem_filter.1 hc).2
      have h2 := (Memory.mem_run hd).1
      simp only [decide_eq_true_eq] at h1
      omega
    · intro c hc d hd
      have h2 := (List.mem_filter.1 hd).2
      simp only [decide_eq_true_eq] at h2
      rcases List.mem_append.1 hc with hc | hc
      · have h1 := (List.mem_filter.1 hc).2
        simp only [decide_eq_true_eq] at h1
        omega
      · have h1 := (Memory.mem_run hc).2
        omega
  · intro c hc
    rcases List.mem_append.1 hc with hc | hc
    · rcases List.mem_append.1 hc with hc | hc
      · exact hr c (List.mem_filter.1 hc).1
      · have := (Memory.mem_run hc).2; omega
    · exact hr c (List.mem_filter.1 hc).1

theorem Memory.nil_wf (size : Nat) : Memory.wf size ([] : Memory w) :=
  ⟨List.Pairwise.nil, fun _ h => absurd h List.not_mem_nil⟩

theorem reset_cm_wf : State.reset.cm.wf 8192 := Memory.nil_wf _

theorem reset_pb_wf : State.reset.pb.wf 21504 := Memory.nil_wf _

/-! ### CM and PB through the updates of State -/

theorem State.cmWord_congr {s t : State} (h : t.cm = s.cm) (he : t.epoch = s.epoch) : t.cmWord = s.cmWord := by
  funext i; simp [State.cmWord, h, he]

theorem State.pbByte_congr {s t : State} (h : t.pb = s.pb) (he : t.epoch = s.epoch) : t.pbByte = s.pbByte := by
  funext i; simp [State.pbByte, h, he]

theorem State.count_congr {s t : State} (h : t.cm = s.cm) (he : t.epoch = s.epoch) : t.count = s.count := by
  funext c b; simp [State.count, State.cmWord_congr h he]

@[simp] theorem raiseFieldOverflow_cmWord (c : CamIx) (b : BinIx) (v : Word) (s : State) : (raiseFieldOverflow c b v s).cmWord = s.cmWord := rfl

@[simp] theorem raiseFieldOverflow_count (c : CamIx) (b : BinIx) (v : Word) (s : State) : (raiseFieldOverflow c b v s).count = s.count := rfl

@[simp] theorem raiseFieldOverflow_pbByte (c : CamIx) (b : BinIx) (v : Word) (s : State) : (raiseFieldOverflow c b v s).pbByte = s.pbByte := rfl

@[simp] theorem raiseCmdReject_cmWord (r : RejectReason) (s : State) : (raiseCmdReject r s).cmWord = s.cmWord := rfl

@[simp] theorem raiseCmdReject_count (r : RejectReason) (s : State) : (raiseCmdReject r s).count = s.count := rfl

@[simp] theorem raiseCmdReject_pbByte (r : RejectReason) (s : State) : (raiseCmdReject r s).pbByte = s.pbByte := rfl

@[simp] theorem clearErrors_cmWord (s : State) : (clearErrors s).cmWord = s.cmWord := rfl

@[simp] theorem clearErrors_count (s : State) : (clearErrors s).count = s.count := rfl

@[simp] theorem clearErrors_pbByte (s : State) : (clearErrors s).pbByte = s.pbByte := rfl

@[simp] theorem startLong_cmWord (op : LongOp) (s : State) : (startLong op s).cmWord = s.cmWord := rfl

@[simp] theorem startLong_count (op : LongOp) (s : State) : (startLong op s).count = s.count := rfl

@[simp] theorem startLong_pbByte (op : LongOp) (s : State) : (startLong op s).pbByte = s.pbByte := rfl

@[simp] theorem finishLong_cmWord (s : State) : (finishLong s).cmWord = s.cmWord := rfl

@[simp] theorem finishLong_count (s : State) : (finishLong s).count = s.count := rfl

@[simp] theorem finishLong_pbByte (s : State) : (finishLong s).pbByte = s.pbByte := rfl

@[simp] theorem takeInput_cmWord (rest : List Input) (s : State) : (takeInput rest s).cmWord = s.cmWord := rfl

@[simp] theorem takeInput_count (rest : List Input) (s : State) : (takeInput rest s).count = s.count := rfl

@[simp] theorem takeInput_pbByte (rest : List Input) (s : State) : (takeInput rest s).pbByte = s.pbByte := rfl

@[simp] theorem answer_cmWord (r : Reply) (s : State) : (answer r s).cmWord = s.cmWord := rfl

@[simp] theorem answer_count (r : Reply) (s : State) : (answer r s).count = s.count := rfl

@[simp] theorem answer_pbByte (r : Reply) (s : State) : (answer r s).pbByte = s.pbByte := rfl

@[simp] theorem publish_cmWord (n : Nat) (bs : List Byte) (a : Accum) (s : State) : (publish n bs a s).cmWord = s.cmWord := rfl

@[simp] theorem publish_count (n : Nat) (bs : List Byte) (a : Accum) (s : State) : (publish n bs a s).count = s.count := rfl

/-- What PB reads after a run of bytes is stored. -/
theorem State.pbByte_write (s t : State) {base : Nat} {vs : List Byte} (h : t.pb = s.pb.write base vs)
    (he : t.epoch = s.epoch) (j : Nat) :
    t.pbByte j = if h : base ≤ j ∧ j < base + vs.length then vs[j - base]'(by omega) else s.pbByte j := by
  unfold State.pbByte
  rw [h, he, Memory.read_write]
  by_cases hj : base ≤ j ∧ j < base + vs.length
  · have : j - base < vs.length := by omega
    simp [hj, this]
  · simp [hj]

/-- What PB reads after a long command's success. -/
theorem publish_pbByte (base : Nat) (vs : List Byte) (a : Accum) (s : State) (j : Nat) :
    (publish base vs a s).pbByte j =
      if h : base ≤ j ∧ j < base + vs.length then vs[j - base]'(by omega) else s.pbByte j :=
  State.pbByte_write s (publish base vs a s) (base := base) (vs := vs) rfl rfl j

/-- What CM reads after one word is stored. -/
theorem State.cmWord_write (s t : State) {i : Nat} {v : Word} (h : t.cm = s.cm.write i [v])
    (he : t.epoch = s.epoch) (j : Nat) : t.cmWord j = if j = i then v else s.cmWord j := by
  unfold State.cmWord
  by_cases hj : j = i
  · subst hj; simp [h]
  · rw [h, he, Memory.read_write_out _ _ _ _ (by simp only [List.length_singleton]; omega), if_neg hj]

end Sys2Proof.Machine
end

