-- ==== Sys2Proof/Laws/Operands.lean ====
section
/-! SUPPORT. The laws of fields and records: the validator as a bound, the bits of a placed field, the bytes of a record,
and the lists of cameras and bins. -/

namespace Sys2Proof.Machine

theorem fits_iff (v : Word) : fits v = true ↔ v.toNat < 2 ^ 21 := by simp [fits]

theorem not_fits_iff (v : Word) : fits v = false ↔ 2 ^ 21 ≤ v.toNat := by simp [fits]

/-- A count that fits has no bit above 20. -/
theorem getLsbD_of_fits {v : Word} (h : fits v = true) {i : Nat} (hi : 21 ≤ i) : v.getLsbD i = false := by
  rw [fits_iff] at h
  exact Nat.testBit_lt_two_pow (h.trans_le (Nat.pow_le_pow_right (by omega) hi))

theorem bitPos_le (c : CamIx) : bitPos c ≤ 147 := by
  have := c.isLt
  simp only [bitPos]; omega

/-- The bits of the accumulator after placing any value. -/
theorem getLsbD_placeField (a : Accum) (c : CamIx) (v : Word) (i : Nat) (hi : i < 192) :
    (placeField a c v).getLsbD i = (a.getLsbD i || (decide (bitPos c ≤ i) && v.getLsbD (i - bitPos c))) := by
  by_cases h : i < bitPos c
  · have : ¬ bitPos c ≤ i := by omega
    simp [placeField, h, this]
  · have h1 : bitPos c ≤ i := by omega
    simp [placeField, hi, h, h1]

theorem placeField_zero (a : Accum) (c : CamIx) : placeField a c 0 = a := by simp [placeField]

/-- Placements commute, whatever the cameras. -/
theorem placeField_comm (a : Accum) (c d : CamIx) (v w : Word) :
    placeField (placeField a c v) d w = placeField (placeField a d w) c v := by
  simp only [placeField, BitVec.or_assoc]
  congr 1
  exact BitVec.or_comm _ _

@[simp] theorem length_serialize (a : Accum) : (serialize a).length = 21 := by simp [serialize]

@[simp] theorem getElem_serialize (a : Accum) (k : Nat) (h : k < (serialize a).length) :
    (serialize a)[k] = recordByte a k := by simp [serialize]

theorem getLsbD_recordByte (a : Accum) (k m : Nat) (hm : m < 8) :
    (recordByte a k).getLsbD m = a.getLsbD (8 * k + m) := by simp [recordByte, hm]

theorem getLsbD_accWord (a : Accum) (k m : Nat) (hm : m < 32) :
    (accWord a k).getLsbD m = a.getLsbD (32 * k + m) := by simp [accWord, hm]

theorem cameras_eq : cameras = [0, 1, 2, 3, 4, 5, 6, 7] := by decide

theorem mem_cameras (c : CamIx) : c ∈ cameras := by revert c; decide

theorem bins_eq : bins = (List.range 1024).map (BitVec.ofNat 10) := by unfold bins; rfl

theorem mem_bins (b : BinIx) : b ∈ bins := by
  rw [bins_eq]
  refine List.mem_map.2 ⟨b.toNat, List.mem_range.2 b.isLt, ?_⟩
  simp

@[simp] theorem length_bins : bins.length = 1024 := by simp [bins_eq]

theorem getElem_bins (k : Nat) (h : k < bins.length) : bins[k] = BitVec.ofNat 10 k := by simp [bins_eq]

theorem recordIndex_le (b : BinIx) : recordIndex b + 21 ≤ 21504 := by
  have := b.isLt
  simp only [recordIndex]; omega

theorem countIndex_lt (c : CamIx) (b : BinIx) : countIndex c b < 8192 := by
  have := c.isLt
  have := b.isLt
  simp only [countIndex]; omega

end Sys2Proof.Machine
end

