-- ==== Sys2Proof/Laws/Ops.lean ====
section
/-! SUPPORT. Everything the shared operations can do: acceptance of a command, the validation order, the records and the
completion of a long command. -/

namespace Sys2Proof.Machine

/-! ### Acceptance (60_exceptions.md R186) -/

theorem busy_iff (s : State) : s.busy = true ↔ s.pend ≠ none := by
  simp [State.busy, Option.isSome_iff_ne_none]

theorem not_busy_iff (s : State) : s.busy = false ↔ s.pend = none := by simp [State.busy]

theorem rejection_busy (i : Instr) (s : State) (h : s.pend ≠ none) : rejection i s = some .busy := by
  simp [rejection, (busy_iff s).2 h]

theorem rejection_ovf (i : Instr) (s : State) (h : s.pend = none) (ho : s.ovf = true)
    (hb : blockedByOverflow i = true) : rejection i s = some .ovfPending := by
  simp [rejection, (not_busy_iff s).2 h, ho, hb]

theorem rejection_none (i : Instr) (s : State) (h : s.pend = none)
    (ho : s.ovf = false ∨ blockedByOverflow i = false) : rejection i s = none := by
  rcases ho with ho | ho <;> simp [rejection, (not_busy_iff s).2 h, ho]

/-- A rejected command sets CMD_ERR and does nothing else. -/
theorem whenAccepted_rejected (i : Instr) (f : State → State) (s : State) {r : RejectReason}
    (h : rejection i s = some r) : whenAccepted i f s = .next (raiseCmdReject r s) := by simp [whenAccepted, h]

/-- An accepted command has its effect. -/
theorem whenAccepted_accepted (i : Instr) (f : State → State) (s : State) (h : rejection i s = none) :
    whenAccepted i f s = .next (f s) := by simp [whenAccepted, h]

/-- All a command can do: be rejected, or have its effect in a state that may run it. -/
theorem whenAccepted_cases {i : Instr} {f : State → State} {s t : State} (h : whenAccepted i f s = .next t) :
    (∃ r, rejection i s = some r ∧ t = raiseCmdReject r s) ∨
      (s.pend = none ∧ (s.ovf = false ∨ blockedByOverflow i = false) ∧ t = f s) := by
  unfold whenAccepted at h
  cases hr : rejection i s with
  | some r =>
    rw [hr] at h
    exact .inl ⟨r, rfl, by injection h with h; exact h.symm⟩
  | none =>
    rw [hr] at h
    refine .inr ⟨?_, ?_, by injection h with h; exact h.symm⟩
    · by_contra hp
      simp [rejection_busy i s hp] at hr
    · by_contra ho
      simp only [not_or, Bool.not_eq_false] at ho
      by_cases hp : s.pend = none
      · simp [rejection_ovf i s hp ho.1 ho.2] at hr
      · simp [rejection_busy i s hp] at hr

/-! ### Validation (41_matrix_packing.md R143) -/

/-- What `firstBad` answers depends on the counts alone. -/
theorem firstBad_congr {s t : State} (h : t.count = s.count) (b : BinIx) : firstBad t b = firstBad s b := by
  simp [firstBad, h]

theorem record_congr {s t : State} (h : t.count = s.count) (b : BinIx) : record t b = record s b := by
  simp [record, h]

theorem firstBad_none {s : State} {b : BinIx} : firstBad s b = none ↔ ∀ c, fits (s.count c b) = true := by
  simp only [firstBad, List.find?_eq_none, Bool.not_eq_true', Bool.not_eq_false]
  exact ⟨fun h c => h c (mem_cameras c), fun h c _ => h c⟩

/-- The count `firstBad` reports does not fit. -/
theorem not_fits_firstBad {s : State} {b : BinIx} {c : CamIx} (h : firstBad s b = some c) :
    fits (s.count c b) = false := by
  simpa using List.find?_some h

theorem firstBadAll_none {s : State} : firstBadAll s = none ↔ ∀ c b, fits (s.count c b) = true := by
  simp only [firstBadAll, List.findSome?_eq_none_iff, Option.map_eq_none_iff, firstBad_none]
  exact ⟨fun h c b => h b (mem_bins b) c, fun h b _ c => h c b⟩

theorem not_fits_firstBadAll {s : State} {b : BinIx} {c : CamIx} (h : firstBadAll s = some (b, c)) :
    firstBad s b = some c := by
  obtain ⟨b', -, hb⟩ := List.exists_of_findSome?_eq_some h
  obtain ⟨c', hc, he⟩ := Option.map_eq_some_iff.1 hb
  cases he
  exact hc

/-! ### Records -/

/-- A record built from fields that fit has no bit above 167. -/
theorem getLsbD_placeField_high {a : Accum} {c : CamIx} {v : Word} (hv : fits v = true) {i : Nat} (hi : 168 ≤ i) :
    (placeField a c v).getLsbD i = a.getLsbD i := by
  by_cases h : i < 192
  · have := bitPos_le c
    rw [getLsbD_placeField _ _ _ _ h, getLsbD_of_fits hv (by omega)]
    simp
  · rw [BitVec.getLsbD_of_ge _ _ (by omega), BitVec.getLsbD_of_ge _ _ (by omega)]

/-- The bits 168..191 are zero exactly when each of them is. -/
theorem acc_high_iff (a : Accum) : a.extractLsb' 168 24 = 0 ↔ ∀ i, 168 ≤ i → a.getLsbD i = false := by
  constructor
  · intro h i hi
    by_cases h2 : i < 192
    · have h3 := congrArg (fun x => x.getLsbD (i - 168)) h
      have h4 : i - 168 < 24 := by omega
      have h5 : 168 + (i - 168) = i := by omega
      simpa [h4, h5] using h3
    · exact BitVec.getLsbD_of_ge _ _ (by omega)
  · intro h
    apply BitVec.eq_of_getLsbD_eq
    intro i _
    simp [h (168 + i) (by omega)]

theorem length_flatMap_serialize (f : BinIx → Accum) (bs : List BinIx) :
    (bs.flatMap (fun b => serialize (f b))).length = 21 * bs.length := by
  induction bs with
  | nil => rfl
  | cons b bs ih => rw [List.flatMap_cons, List.length_append, ih, length_serialize, List.length_cons]; omega

theorem getElem_flatMap_serialize (f : BinIx → Accum) (bs : List BinIx) {i k : Nat} (hk : k < 21) (hi : i < bs.length)
    (h : i * 21 + k < (bs.flatMap (fun b => serialize (f b))).length) :
    (bs.flatMap (fun b => serialize (f b)))[i * 21 + k] = recordByte (f bs[i]) k := by
  induction bs generalizing i with
  | nil => simp at hi
  | cons b bs ih =>
    cases i with
    | zero => simp [List.flatMap_cons, hk]
    | succ i =>
      simp only [List.flatMap_cons]
      rw [List.getElem_append_right (by rw [length_serialize]; omega)]
      have e : (i + 1) * 21 + k - (serialize (f b)).length = i * 21 + k := by rw [length_serialize]; omega
      simp only [e]
      rw [ih (by simpa using hi)]
      simp

@[simp] theorem length_packedBytes (s : State) : (packedBytes s).length = 21504 := by
  rw [packedBytes, length_flatMap_serialize, length_bins]

/-- Byte 21b + k of a packed matrix is byte k of the record of bin b. -/
theorem getElem_packedBytes (s : State) (b : BinIx) {k : Nat} (hk : k < 21)
    (h : b.toNat * 21 + k < (packedBytes s).length) :
    (packedBytes s)[b.toNat * 21 + k] = recordByte (record s b) k := by
  have hb : b.toNat < bins.length := by rw [length_bins]; exact b.isLt
  have := getElem_flatMap_serialize (record s) bins hk hb h
  rw [getElem_bins, BitVec.ofNat_toNat, BitVec.setWidth_eq] at this
  exact this

/-! ### Completion (41_matrix_packing.md R145, R147) -/

theorem completePackbin_overflow {s : State} {b : BinIx} {c : CamIx} (h : firstBad s b = some c) :
    completePackbin b s = finishLong (raiseFieldOverflow c b (s.count c b) s) := by
  rw [completePackbin, h]

theorem completePackbin_success {s : State} {b : BinIx} (h : firstBad s b = none) :
    completePackbin b s = finishLong (publish (recordIndex b) (serialize (record s b)) (record s b) s) := by
  rw [completePackbin, h]

theorem completePack_overflow {s : State} {b : BinIx} {c : CamIx} (h : firstBadAll s = some (b, c)) :
    completePack s = finishLong (raiseFieldOverflow c b (s.count c b) s) := by
  rw [completePack, h]; rfl

theorem completePack_success {s : State} (h : firstBadAll s = none) :
    completePack s = finishLong (publish 0 (packedBytes s) (record s 1023) s) := by
  rw [completePack, h]; rfl

/-- All a completion can do: capture an overflow, or publish the bytes of one record or of all of them. -/
theorem complete_cases (s : State) (h : s.pend ≠ none) :
    (∃ c b, fits (s.count c b) = false ∧ complete s = finishLong (raiseFieldOverflow c b (s.count c b) s)) ∨
      (∃ b, s.pend = some (.packbin b) ∧ (∀ c, fits (s.count c b) = true) ∧
        complete s = finishLong (publish (recordIndex b) (serialize (record s b)) (record s b) s)) ∨
      (s.pend = some .pack ∧ (∀ c b, fits (s.count c b) = true) ∧
        complete s = finishLong (publish 0 (packedBytes s) (record s 1023) s)) := by
  unfold complete
  cases hp : s.pend with
  | none => exact absurd hp h
  | some op =>
    cases op with
    | packbin b =>
      cases hb : firstBad s b with
      | some c => exact .inl ⟨c, b, not_fits_firstBad hb, completePackbin_overflow hb⟩
      | none => exact .inr (.inl ⟨b, rfl, firstBad_none.1 hb, completePackbin_success hb⟩)
    | pack =>
      cases hb : firstBadAll s with
      | some bc =>
        obtain ⟨b, c⟩ := bc
        exact .inl ⟨c, b, not_fits_firstBad (not_fits_firstBadAll hb), completePack_overflow hb⟩
      | none => exact .inr (.inr ⟨rfl, firstBadAll_none.1 hb, completePack_success hb⟩)

end Sys2Proof.Machine
end

