-- ==== Sys2Proof/Laws/PerInstr.lean ====
section
/-! SUPPORT. The family Encoding: what is said of every command as syntax, one lemma per constructor. -/

/-- A command is well formed, its word is legal, and the decoder reads the command back from its word. -/
def Sys2Proof.Laws.Encoding.Statement (i : Sys2Proof.Instr) : Prop :=
  i.wellFormed = true ∧ Sys2Proof.legal (Sys2Proof.encode i) = true ∧ Sys2Proof.decode (Sys2Proof.encode i) = .ok i

theorem Sys2Proof.Laws.Encoding.nop : Sys2Proof.Laws.Encoding.Statement .nop := by
  unfold Sys2Proof.Laws.Encoding.Statement; decide

theorem Sys2Proof.Laws.Encoding.aclr : Sys2Proof.Laws.Encoding.Statement .aclr := by
  unfold Sys2Proof.Laws.Encoding.Statement; decide

theorem Sys2Proof.Laws.Encoding.place (cam : Sys2Proof.CamIx) : Sys2Proof.Laws.Encoding.Statement (.place cam) := by
  unfold Sys2Proof.Laws.Encoding.Statement; revert cam; decide

theorem Sys2Proof.Laws.Encoding.emit : Sys2Proof.Laws.Encoding.Statement .emit := by
  unfold Sys2Proof.Laws.Encoding.Statement; decide

theorem Sys2Proof.Laws.Encoding.packbin : Sys2Proof.Laws.Encoding.Statement .packbin := by
  unfold Sys2Proof.Laws.Encoding.Statement; decide

theorem Sys2Proof.Laws.Encoding.pack : Sys2Proof.Laws.Encoding.Statement .pack := by
  unfold Sys2Proof.Laws.Encoding.Statement; decide

theorem Sys2Proof.Laws.Encoding.eclr : Sys2Proof.Laws.Encoding.Statement .eclr := by
  unfold Sys2Proof.Laws.Encoding.Statement; decide
end

