-- ==== Sys2Proof/Laws/Transact.lean ====
section
/-! SUPPORT. Everything a transaction, an input and a step can do, said once. -/

namespace Sys2Proof.Machine

/-- The effect of each command once it is accepted. -/
def effectOf : Instr → State → State
  | .nop => fun s => s
  | .aclr => fun s => { s with acc := 0 }
  | .place c => placeEffect c
  | .emit => fun s => { s with pb := s.pb.write (recordIndex s.bin) (serialize s.acc) }
  | .packbin => fun s => startLong (.packbin s.bin) s
  | .pack => startLong .pack
  | .eclr => clearErrors

/-- Every command is its effect behind one acceptance rule. -/
theorem exec_eq (i : Instr) (s : State) : exec i s = whenAccepted i (effectOf i) s := by cases i <;> rfl

/-- A command answers a next state always: a rejection is one too. -/
theorem exec_next (i : Instr) (s : State) : ∃ t, exec i s = .next t := by
  rw [exec_eq]
  unfold whenAccepted
  split <;> exact ⟨_, rfl⟩

/-- While an operation is pending every command is rejected. -/
theorem exec_busy (i : Instr) (s : State) (h : s.pend ≠ none) : exec i s = .next { s with cmdErr := true } := by
  rw [exec_eq, whenAccepted_rejected _ _ _ (rejection_busy i s h)]
  rfl

/-- A data command is rejected while an operation or an overflow is pending. -/
theorem exec_blocked (i : Instr) (s : State) (h : s.pend ≠ none ∨ s.ovf = true) (hb : blockedByOverflow i = true) :
    exec i s = .next { s with cmdErr := true } := by
  by_cases hp : s.pend = none
  · rw [exec_eq, whenAccepted_rejected _ _ _ (rejection_ovf i s hp (h.resolve_left (by simp [hp])) hb)]
    rfl
  · exact exec_busy i s hp

/-- An accepted command has its effect. -/
theorem exec_accepted (i : Instr) (s : State) (hp : s.pend = none) (h : s.ovf = false ∨ blockedByOverflow i = false) :
    exec i s = .next (effectOf i s) := by
  rw [exec_eq, whenAccepted_accepted _ _ _ (rejection_none i s hp h)]

/-- All a command can do: set CMD_ERR alone, or have its effect in a state that may run it. -/
theorem exec_cases {i : Instr} {s t : State} (h : exec i s = .next t) :
    t = { s with cmdErr := true } ∨
      (s.pend = none ∧ (s.ovf = false ∨ blockedByOverflow i = false) ∧ t = effectOf i s) := by
  rw [exec_eq] at h
  rcases whenAccepted_cases h with ⟨r, -, rfl⟩ | h
  · exact .inl rfl
  · exact .inr h

theorem placeEffect_fits {c : CamIx} {s : State} (h : fits s.data = true) :
    placeEffect c s = { s with acc := placeField s.acc c s.data } := by simp [placeEffect, h]

theorem placeEffect_overflow {c : CamIx} {s : State} (h : fits s.data = false) :
    placeEffect c s = raiseFieldOverflow c s.bin s.data s := by simp [placeEffect, h]

/-- There is a slot at the offsets inside the interface and at no other. -/
theorem slotAt_isSome (off : Nat) : (slotAt off).isSome = (off % 4 == 0 && decide (off < 0x40)) := by
  by_cases h : off < 0x40
  · interval_cases off <;> rfl
  · have hn : slotAt off = none := by
      unfold slotAt
      split <;> first | rfl | omega
    simp [hn, h]

theorem slotAt_cmd {off : Nat} (h : slotAt off = some .cmd) : off = 0x04 := by
  unfold slotAt at h
  split at h <;> simp_all

theorem slotAt_data {off : Nat} (h : slotAt off = some .data) : off = 0x0C := by
  unfold slotAt at h
  split at h <;> simp_all

theorem slotAt_bin {off : Nat} (h : slotAt off = some .bin) : off = 0x10 := by
  unfold slotAt at h
  split at h <;> simp_all

/-- The command word a `REG_WR` to CMD issues: rejected while busy, rejected if illegal, else the decoded command runs. -/
theorem issue_busy (w : Word) (s : State) (h : s.pend ≠ none) : issue w s = .next (raiseCmdReject .busy s) := by
  simp [issue, (busy_iff s).2 h]

theorem issue_illegal {w : Word} {e : Illegal} (s : State) (h : s.pend = none) (hw : decode w = .error e) :
    issue w s = .next (raiseCmdReject .illegal s) := by simp [issue, (not_busy_iff s).2 h, hw]

theorem issue_command {w : Word} {i : Instr} (s : State) (h : s.pend = none) (hw : decode w = .ok i) :
    issue w s = exec i s := by simp [issue, (not_busy_iff s).2 h, hw]

/-- All a register write can do. -/
theorem regWrite_cases {r : Slot} {v : Word} {s t : State} (h : regWrite r v s = .next t) :
    (∃ q, t = raiseCmdReject q s) ∨ t = s ∨ (r = .data ∧ s.pend = none ∧ t = { s with data := v }) ∨
      (r = .bin ∧ s.pend = none ∧ t = { s with bin := v.extractLsb' 0 10 }) ∨
      (r = .cmd ∧ s.pend = none ∧ ∃ i, decode v = .ok i ∧ exec i s = .next t) := by
  cases r with
  | param | status | errLoc | errVal | reserved => injection h with h; exact .inr (.inl h.symm)
  | acc k => injection h with h; exact .inr (.inl h.symm)
  | data =>
    by_cases hb : s.pend = none
    · simp [regWrite, (not_busy_iff s).2 hb] at h
      exact .inr (.inr (.inl ⟨rfl, hb, h.symm⟩))
    · simp [regWrite, (busy_iff s).2 hb] at h
      exact .inl ⟨_, h.symm⟩
  | bin =>
    by_cases hb : s.pend = none
    · simp [regWrite, (not_busy_iff s).2 hb] at h
      exact .inr (.inr (.inr (.inl ⟨rfl, hb, h.symm⟩)))
    · simp [regWrite, (busy_iff s).2 hb] at h
      exact .inl ⟨_, h.symm⟩
  | cmd =>
    by_cases hb : s.pend = none
    · cases hd : decode v with
      | error e =>
        rw [regWrite, issue_illegal s hb hd] at h
        injection h with h
        exact .inl ⟨_, h.symm⟩
      | ok i =>
        rw [regWrite, issue_command s hb hd] at h
        exact .inr (.inr (.inr (.inr ⟨rfl, hb, i, rfl, h⟩)))
    · rw [regWrite, issue_busy v s hb] at h
      injection h with h
      exact .inl ⟨_, h.symm⟩

/-- All a transaction can do. -/
theorem transact_cases {tr : Transaction} {s t : State} (h : transact tr s = .next t) :
    (∃ r, t = answer r s) ∨ (∃ off v r, tr = .regWr off v ∧ slotAt off = some r ∧ regWrite r v s = .next t) ∨
      (∃ i v, tr = .cmWr i v ∧ i < 8192 ∧ t = cmWrite i v s) := by
  cases tr with
  | regRd off =>
    simp only [transact] at h
    split at h
    · injection h with h; exact .inl ⟨_, h.symm⟩
    · cases h
  | regWr off v =>
    simp only [transact] at h
    split at h
    · next r hr => exact .inr (.inl ⟨off, v, r, rfl, hr, h⟩)
    · cases h
  | cmRd i =>
    simp only [transact] at h
    split at h
    · injection h with h; exact .inl ⟨_, h.symm⟩
    · cases h
  | cmWr i v =>
    simp only [transact] at h
    split at h
    · next hi => injection h with h; exact .inr (.inr ⟨i, v, rfl, hi, h.symm⟩)
    · cases h
  | pbRd j =>
    simp only [transact] at h
    split at h
    · injection h with h; exact .inl ⟨_, h.symm⟩
    · cases h

/-- A transaction inside the interface is always answered. -/
theorem transact_next {tr : Transaction} (s : State) (h : tr.wellFormed = true) : ∃ t, transact tr s = .next t := by
  have hreg : ∀ (r : Slot) (v : Word), ∃ t, regWrite r v s = .next t := by
    intro r v
    cases r with
    | cmd =>
      simp only [regWrite, issue]
      split
      · exact ⟨_, rfl⟩
      · split
        · exact ⟨_, rfl⟩
        · exact exec_next _ _
    | _ => exact ⟨_, rfl⟩
  cases tr with
  | regRd off =>
    obtain ⟨r, hr⟩ := Option.isSome_iff_exists.1 ((slotAt_isSome off).trans h)
    exact ⟨answer (.word (regValue s r)) s, by simp [transact, hr]⟩
  | regWr off v =>
    obtain ⟨r, hr⟩ := Option.isSome_iff_exists.1 ((slotAt_isSome off).trans h)
    obtain ⟨t, ht⟩ := hreg r v
    exact ⟨t, by simp [transact, hr, ht]⟩
  | cmRd i =>
    have hi : i < 8192 := by simp [Transaction.wellFormed] at h; omega
    exact ⟨_, by simp [transact, hi]; rfl⟩
  | cmWr i v =>
    have hi : i < 8192 := by simp [Transaction.wellFormed] at h; omega
    exact ⟨_, by simp [transact, hi]; rfl⟩
  | pbRd j =>
    have hj : j < 21504 := by simp [Transaction.wellFormed] at h; omega
    exact ⟨_, by simp [transact, hj]; rfl⟩

/-- All an input can do, one line each: a read answers; a poll; a reset; a rejection; an ignored write; DATA, BIN or a CM
word is stored; a command takes effect. -/
theorem deliver_cases {x : Input} {s t : State} (h : deliver x s = .next t) :
    (∃ tr r, x = .tx tr ∧ t = answer r s) ∨ (x = .poll ∧ t = pollStatus s) ∨ (x = .reset ∧ t = resetEvent s) ∨
    (∃ tr q, x = .tx tr ∧ t = raiseCmdReject q s) ∨ (∃ tr, x = .tx tr ∧ t = s) ∨
    (∃ v, x = .tx (.regWr 0x0C v) ∧ s.pend = none ∧ t = { s with data := v }) ∨
    (∃ v, x = .tx (.regWr 0x10 v) ∧ s.pend = none ∧ t = { s with bin := v.extractLsb' 0 10 }) ∨
    (∃ i v, x = .tx (.cmWr i v) ∧ i < 8192 ∧ s.pend = none ∧ t = { s with cm := s.cm.write i [v] }) ∨
    (∃ i v, x = .tx (.regWr 0x04 v) ∧ decode v = .ok i ∧ s.pend = none ∧
      (s.ovf = false ∨ blockedByOverflow i = false) ∧ t = effectOf i s) := by
  cases x with
  | poll => injection h with h; exact .inr (.inl ⟨rfl, h.symm⟩)
  | reset => injection h with h; exact .inr (.inr (.inl ⟨rfl, h.symm⟩))
  | tx tr =>
    rcases transact_cases h with ⟨r, rfl⟩ | ⟨off, v, r, rfl, hr, hw⟩ | ⟨i, v, rfl, hi, rfl⟩
    · exact .inl ⟨tr, r, rfl, rfl⟩
    · rcases regWrite_cases hw with ⟨q, rfl⟩ | rfl | ⟨rfl, hp, rfl⟩ | ⟨rfl, hp, rfl⟩ | ⟨rfl, hp, i, hd, hex⟩
      · exact .inr (.inr (.inr (.inl ⟨_, q, rfl, rfl⟩)))
      · exact .inr (.inr (.inr (.inr (.inl ⟨_, rfl, rfl⟩))))
      · obtain rfl := slotAt_data hr
        exact .inr (.inr (.inr (.inr (.inr (.inl ⟨v, rfl, hp, rfl⟩)))))
      · obtain rfl := slotAt_bin hr
        exact .inr (.inr (.inr (.inr (.inr (.inr (.inl ⟨v, rfl, hp, rfl⟩))))))
      · obtain rfl := slotAt_cmd hr
        rcases exec_cases hex with rfl | ⟨-, ho, rfl⟩
        · exact .inr (.inr (.inr (.inl ⟨_, .busy, rfl, rfl⟩)))
        · exact .inr (.inr (.inr (.inr (.inr (.inr (.inr (.inr ⟨i, v, rfl, hd, hp, ho, rfl⟩)))))))
    · unfold cmWrite
      cases hb : s.busy with
      | true => exact .inr (.inr (.inr (.inl ⟨_, .lockedCm, rfl, rfl⟩)))
      | false => exact .inr (.inr (.inr (.inr (.inr (.inr (.inr (.inl ⟨i, v, rfl, hi, (not_busy_iff s).1 hb, rfl⟩)))))))

/-! ### Steps -/

theorem engineTurn_iff (s : State) : engineTurn s = true ↔ s.pend ≠ none ∧ (s.wait = 0 ∨ s.inbox = []) := by
  simp [engineTurn, busy_iff]

theorem step_engine {s : State} (h : engineTurn s = true) : step s = .next (complete s) := by
  simp [step, nextStep, h]

theorem step_input {s : State} {x : Input} {rest : List Input} (h : engineTurn s = false)
    (hx : s.inbox = x :: rest) : step s = deliver x (takeInput rest s) := by simp [step, nextStep, h, hx]

theorem step_tx {s : State} {tr : Transaction} {rest : List Input} (h : engineTurn s = false)
    (hx : s.inbox = .tx tr :: rest) : step s = transact tr (takeInput rest s) := step_input h hx

theorem engineTurn_idle {s : State} (hp : s.pend = none) : engineTurn s = false := by
  simp [engineTurn, (not_busy_iff s).2 hp]

theorem step_idle {s : State} (h : engineTurn s = false) (hx : s.inbox = []) : step s = .next s := by
  simp [step, nextStep, h, hx]

/-- All a step can do: the engine completes, the block idles, or the first input is delivered. -/
theorem step_cases {s t : State} (h : step s = .next t) :
    (engineTurn s = true ∧ t = complete s) ∨ (engineTurn s = false ∧ s.inbox = [] ∧ t = s) ∨
      (∃ x rest, engineTurn s = false ∧ s.inbox = x :: rest ∧ deliver x (takeInput rest s) = .next t) := by
  cases he : engineTurn s with
  | true =>
    rw [step_engine he] at h
    injection h with h
    exact .inl ⟨rfl, h.symm⟩
  | false =>
    cases hx : s.inbox with
    | nil =>
      rw [step_idle he hx] at h
      injection h with h
      exact .inr (.inl ⟨rfl, rfl, h.symm⟩)
    | cons x rest =>
      rw [step_input he hx] at h
      exact .inr (.inr ⟨x, rest, rfl, rfl, h⟩)

end Sys2Proof.Machine
end

