-- ==== Sys2Proof/Laws/Run.lean ====
section
/-! SUPPORT. A run taken apart at its first step. -/

namespace Sys2Proof

open Machine

/-- A run whose first step answers goes on from there. -/
theorem run_step (n : Nat) {s t : State} (h : step s = .next t) :
    Host.Core.run core (n + 1) s = Host.Core.run core n t := by
  have h' : core.step s = .next t := h
  simp only [Host.Core.run, h']

/-- A run that answers has answered at its first step. -/
theorem run_next {n : Nat} {s t : State} (h : Host.Core.run core (n + 1) s = .next t) :
    ∃ u, step s = .next u ∧ Host.Core.run core n u = .next t := by
  simp only [Host.Core.run] at h
  split at h
  · exact ⟨_, ‹_›, h⟩
  · cases h
  · cases h

end Sys2Proof
end

