-- ==== Sys2Proof/Tests/Slice0.lean ====
section
/-! SUPPORT. Tests. The expected values are those of 95_test_vectors.md or of the encoding tables of 30_encoding.md; a test
named `test_witness_...` shows states and operands that meet all the hypotheses of an obligation together, clause by
clause at the ends of the ranges. -/

namespace Sys2Proof.Tests

open Sys2Proof Sys2Proof.Machine

/-- The block after reset, with these inputs to come. -/
def idle (xs : List Input) : State := { State.reset with inbox := xs }

/-- The block with an operation pending that lets n inputs pass first. -/
def pending (op : LongOp) (n : Nat) (xs : List Input) : State := { idle xs with pend := some op, wait := n }

/-- The block with the overflow of PG3 line 6 pending: ERR_LOC 0x00050003, ERR_VAL 0x00200000. -/
def overflowed (xs : List Input) : State :=
  { idle xs with ovf := true, errCam := 3, errBin := 5, errVal := 0x00200000, data := 0x00200000, bin := 5 }

/-- The block with DATA and BIN set. -/
def loaded (v : Word) (b : BinIx) (xs : List Input) : State := { idle xs with data := v, bin := b }

/-- A CM in which every word has been written with 0. -/
def zeroCm : Memory 32 := Memory.run 0 (List.replicate 8192 0)

/-- A CM in which the eight counts of one bin have been written. -/
def binCm (b : BinIx) (f : CamIx → Word) : Memory 32 := cameras.map (fun c => (countIndex c b, f c))

/-- The accumulator of the record [1, 2, ..., 8] (95_test_vectors.md 2.2). -/
def accOneToEight : Accum := 0x00000000_00400001_C0000C00_00500002_00000C00_00400001

/-- The state a step or a command leads to. -/
def nextOf (o : Host.Outcome State Fault Refusal) : Option State :=
  match o with
  | .next t => some t
  | .fault _ => none
  | .refused _ => none

/-- The values last read by the host after a step. -/
def repliesOf (o : Host.Outcome State Fault Refusal) : Option (List Reply) := (nextOf o).map State.replies

/-! ### What is ill-formed -/

theorem test_misaligned_read_is_ill_formed : (Transaction.regRd 0x06).wellFormed = false := by decide
theorem test_misaligned_write_is_ill_formed : (Transaction.regWr 0x05 0).wellFormed = false := by decide
theorem test_read_past_the_window_is_ill_formed : (Transaction.regRd 0x40).wellFormed = false := by decide
theorem test_write_past_the_window_is_ill_formed : (Transaction.regWr 0x40 0).wellFormed = false := by decide
theorem test_count_read_past_the_end_is_ill_formed : (Transaction.cmRd 8192).wellFormed = false := by decide
theorem test_count_write_past_the_end_is_ill_formed : (Transaction.cmWr 8192 0).wellFormed = false := by decide
theorem test_packed_read_past_the_end_is_ill_formed : (Transaction.pbRd 21504).wellFormed = false := by decide
theorem test_last_units_are_well_formed : (Transaction.regRd 0x3C).wellFormed = true ∧ (Transaction.regWr 0x3C 0).wellFormed = true ∧
    (Transaction.cmRd 8191).wellFormed = true ∧ (Transaction.cmWr 8191 0).wellFormed = true ∧
    (Transaction.pbRd 21503).wellFormed = true ∧ Input.poll.wellFormed = true ∧ Input.reset.wellFormed = true := by decide
theorem test_every_command_is_well_formed : Instr.nop.wellFormed = true ∧ (Instr.place 7).wellFormed = true := by decide

/-! ### Words written out from the field table: RSV (25 bits), CAM (3 bits), OP (4 bits) -/

theorem test_word_nop : decode (0b0000000000000000000000000#25 ++ 0b000#3 ++ 0b0000#4) = .ok .nop := by rfl
theorem test_word_aclr : decode (0b0000000000000000000000000#25 ++ 0b000#3 ++ 0b0001#4) = .ok .aclr := by rfl
theorem test_word_place_0 : decode (0b0000000000000000000000000#25 ++ 0b000#3 ++ 0b0010#4) = .ok (.place 0) := by rfl
theorem test_word_place_3 : decode (0b0000000000000000000000000#25 ++ 0b011#3 ++ 0b0010#4) = .ok (.place 3) := by rfl
theorem test_word_place_7 : decode (0b0000000000000000000000000#25 ++ 0b111#3 ++ 0b0010#4) = .ok (.place 7) := by rfl
theorem test_word_emit : decode (0b0000000000000000000000000#25 ++ 0b000#3 ++ 0b0011#4) = .ok .emit := by rfl
theorem test_word_packbin : decode (0b0000000000000000000000000#25 ++ 0b000#3 ++ 0b0100#4) = .ok .packbin := by rfl
theorem test_word_pack : decode (0b0000000000000000000000000#25 ++ 0b000#3 ++ 0b0101#4) = .ok .pack := by rfl
theorem test_word_eclr : decode (0b0000000000000000000000000#25 ++ 0b000#3 ++ 0b0110#4) = .ok .eclr := by rfl
theorem test_word_op_7 : decode 0x00000007 = .error .reservedOp := by rfl
theorem test_word_op_15 : decode 0x0000000F = .error .reservedOp := by rfl
theorem test_word_rsv_low : decode 0x00000080 = .error .reservedBits := by rfl
theorem test_word_rsv_high : decode 0x80000000 = .error .reservedBits := by rfl
theorem test_word_emit_with_cam : decode 0x00000013 = .error .strayCam := by rfl
theorem test_encode_place_7 : encode (.place 7) = 0x00000072 := by decide
theorem test_table_word : decodeTableWord 32 0x00000072 = some (.place 7) := by decide
theorem test_table_word_with_high_bits : decodeTableWord 32 0x100000005 = some .pack := by decide
theorem test_first_step_after_reset : step (State.reset.withFetchWord 32 0x00000001) = exec .aclr State.reset := by rfl

/-! ### One step of each command (95_test_vectors.md) -/

/-- 2.3: NOP. -/
theorem test_nop : exec .nop State.reset = .next State.reset := by rfl

/-- 2.4: any command write while BUSY is rejected. -/
theorem test_nop_while_busy : (nextOf (exec .nop (pending .pack 1 []))).map statusWord = some 0x00000009 := by decide

/-- 2.3: ACLR, accepted also while OVF = 1. -/
theorem test_aclr : (nextOf (exec .aclr { overflowed [] with acc := accOneToEight })).map
    (fun t => (t.acc, statusWord t, errLocWord t)) = some (0, 0x00000004, 0x00050003) := by decide

/-- 1.4: the straddling field of camera 1. -/
theorem test_place_straddles : (nextOf (exec (.place 1) (loaded 0x001FFFFF 5 []))).map (fun t => accWords t.acc) =
    some [0xFFE00000, 0x000003FF, 0, 0, 0, 0] := by decide

/-- PG3 line 6: the first value that does not fit. -/
theorem test_place_overflow : (nextOf (exec (.place 3) { loaded 0x00200000 5 [] with acc := accOneToEight })).map
    (fun t => (statusWord t, errLocWord t, t.errVal, t.acc)) = some (0x00000004, 0x00050003, 0x00200000, 0) := by decide

/-- 2.3: EMIT of the record [1, ..., 8] into the last bin. -/
theorem test_emit : (nextOf (exec .emit { loaded 0 1023 [] with acc := accOneToEight })).map
    (fun t => (t.pb.map Prod.fst, t.pb.map Prod.snd)) =
      some (List.range' 21483 21, [0x01, 0x00, 0x40, 0x00, 0x00, 0x0C, 0x00, 0x00, 0x02, 0x00, 0x50, 0x00, 0x00, 0x0C, 0x00,
        0xC0, 0x01, 0x00, 0x40, 0x00, 0x00]) := by decide

/-- PG3 line 7: EMIT is rejected while OVF = 1. -/
theorem test_emit_while_overflowed : (nextOf (exec .emit (overflowed []))).map (fun t => (statusWord t, t.pb)) =
    some (0x0000000C, []) := by decide

/-- R144's example: after PACKBIN, STATUS reads 0x00000001. -/
theorem test_packbin : (nextOf (exec .packbin { loaded 0 5 [] with done := true })).map (fun t => (t.pend, statusWord t)) =
    some (some (.packbin 5), 0x00000001) := by decide

/-- 2.5: PACKBIN's completion on bin 2 of the CM of PG4. -/
theorem test_packbin_completion :
    (nextOf (step { pending (.packbin 2) 0 [] with cm := binCm 2 (fun c => 16 ||| c.setWidth 32) })).map
      (fun t => (statusWord t, t.pb.map Prod.fst, t.pb.map Prod.snd)) =
    some (0x00000002, List.range' 42 21, [0x10, 0x00, 0x20, 0x02, 0x00, 0x48, 0x00, 0x80, 0x09, 0x00, 0x40, 0x01, 0x00, 0x2A,
      0x00, 0x80, 0x05, 0x00, 0xB8, 0x00, 0x00]) := by decide

/-- R146's example: after PACK, STATUS reads 0x00000001. -/
theorem test_pack : (nextOf (exec .pack (idle []))).map (fun t => (t.pend, statusWord t)) =
    some (some .pack, 0x00000001) := by decide

/-- 2.3: ECLR. -/
theorem test_eclr : (nextOf (exec .eclr { overflowed [] with cmdErr := true, acc := accOneToEight })).map
    (fun t => (statusWord t, errLocWord t, t.errVal, t.acc, t.bin)) = some (0, 0, 0, accOneToEight, 5) := by decide

/-- 2.5: PACKBIN on bin 700 reports camera 5 before camera 6. -/
theorem test_packbin_overflow :
    (nextOf (step { pending (.packbin 700) 0 [] with
      cm := binCm 700 (fun c => if c = 5 then 0x200000 else if c = 6 then 0x300000 else 0) })).map
      (fun t => (statusWord t, errLocWord t, t.errVal, t.pb)) = some (0x00000004, 0x02BC0005, 0x00200000, []) := by decide

/-! ### Transactions -/

theorem test_param : paramWord = 0x04000815 := by decide
theorem test_bin_keeps_ten_bits : (nextOf (step (idle [asmWrBin 0xFFFFFFFF]))).map (fun t => (binWord t, statusWord t)) =
    some (0x000003FF, 0) := by decide
theorem test_acc_hidden_while_busy :
    repliesOf (step { pending .pack 2 [.tx (.regRd 0x20)] with acc := accOneToEight }) = some [.word 0] := by decide
theorem test_acc_reads_its_word :
    repliesOf (step { idle [.tx (.regRd 0x24)] with acc := accOneToEight }) = some [.word 0x00000C00] := by decide
theorem test_data_locked_while_busy : (nextOf (step (pending .pack 2 [asmWrData 5]))).map (fun t => (t.data, statusWord t)) =
    some (0, 0x00000009) := by decide
theorem test_status_write_is_ignored : step (idle [.tx (.regWr 0x08 0xF)]) = .next (idle []) := by rfl

/-! ### The counts of the CMs above -/

theorem zeroCm_read (i : Nat) (h : i < 8192) : zeroCm.read i = some 0 := by
  rw [zeroCm, Memory.read_run, if_pos (Nat.zero_le i), Nat.sub_zero, List.getElem?_replicate, if_pos h]

theorem zero_count (s : State) (h : s.cm = zeroCm) (c : CamIx) (b : BinIx) : s.count c b = 0 := by
  rw [State.count, State.cmWord, h, zeroCm_read _ (countIndex_lt c b)]
  rfl

/-- All counts 0 but the last one of the matrix. -/
def badLastCm : Memory 32 := zeroCm.write 8191 [0x00200000]

theorem badLast_count (s : State) (h : s.cm = badLastCm) (c : CamIx) (b : BinIx) :
    s.count c b = if countIndex c b = 8191 then 0x00200000 else 0 := by
  rw [State.count, State.cmWord_write { s with cm := zeroCm } s h rfl, State.cmWord, zeroCm_read _ (countIndex_lt c b)]
  rfl

/-- The state of the invariant's witnesses: an overflow pending, some cells written, one word of DATA. -/
def used : State := { overflowed [.tx (.regRd 0x08)] with
  cm := [(0, 5), (8191, 7)], pb := [(0, 1), (21503, 2)], epoch := 2, longs := 1, replies := [.word 4] }

theorem used_inv : Inv used where
  cm_wf := by decide
  pb_wf := by decide
  acc_high := by decide
  err_clear := fun h => absurd h (by decide)
  err_big := by decide
  acc_abandoned := fun _ => rfl
  pend_clean := fun h => absurd rfl h

theorem pending_inv (op : LongOp) (n : Nat) (xs : List Input) (m : Memory 32) (a : Accum) (hm : m.wf 8192)
    (ha : a.extractLsb' 168 24 = 0) : Inv { pending op n xs with cm := m, acc := a } where
  cm_wf := hm
  pb_wf := Memory.nil_wf _
  acc_high := ha
  err_clear := fun _ => ⟨rfl, rfl, rfl⟩
  err_big := fun h => absurd h (by simp [pending, idle, State.reset])
  acc_abandoned := fun h => absurd h (by simp [pending, idle, State.reset])
  pend_clean := fun _ => ⟨rfl, rfl⟩

theorem zeroCm_wf : zeroCm.wf 8192 := by
  constructor
  · exact Memory.pairwise_run _ _
  · intro c hc
    have := Memory.mem_run hc
    simp only [List.length_replicate] at this
    omega

theorem badLastCm_wf : badLastCm.wf 8192 := Memory.write_wf zeroCm_wf (by simp)

/-! ### Witnesses: command words, acceptance, commands -/

theorem test_witness_WordsOutsideTheListAreRejected :
    ([0x00000007, 0x0000000F, 0x00000080, 0x80000000, 0x00000013, 0x00000071] : List Word).all
      (fun w => !legal w && !engineTurn (idle [.tx (.regWr 0x04 w)])) = true := by decide

theorem test_witness_DecodeFollowsTheCaseTable :
    legal 0x0 = true ∧ legal 0x1 = true ∧ legal 0x02 = true ∧ legal 0x72 = true ∧ legal 0x3 = true ∧ legal 0x4 = true ∧
      legal 0x5 = true ∧ legal 0x6 = true ∧ opField 0x72 = 0x2 ∧ legal 0x7 = false := by decide

theorem test_witness_StepRunsTheDecodedCommand :
    (idle [asmCmd (.place 7), .reset]).pend = none ∧ decode 0x72 = .ok (.place 7) ∧
      (idle [asmCmd (.place 7), .reset]).inbox = .tx (.regWr 0x04 0x72) :: [.reset] := ⟨rfl, rfl, rfl⟩

theorem test_witness_CommandsAreAcceptedInThePriorityOrder :
    (engineTurn (pending .pack 1 [.tx (.regWr 0x04 0x7)]) = false ∧ (pending .pack 1 [.tx (.regWr 0x04 0x7)]).pend ≠ none) ∧
    ((overflowed [.tx (.regWr 0x04 0x7)]).pend = none ∧ legal 0x7 = false) ∧
    ((overflowed [asmCmd .pack]).pend = none ∧ (overflowed [asmCmd .pack]).ovf = true ∧ encode .pack = 0x5) ∧
    ((idle [asmCmd .pack]).pend = none ∧ (idle [asmCmd .pack]).ovf = false) ∧
    ((overflowed [asmCmd .aclr]).pend = none ∧ engineTurn (overflowed [asmCmd .aclr]) = false) := by decide

theorem test_witness_RejectionsAreExactlyTheTableAndSetOnlyCmdErr :
    RejectedAccess (pending .pack 1 []) (.regWr 0x04 0x6) ∧ RejectedAccess (idle []) (.regWr 0x04 0x7) ∧
    RejectedAccess (overflowed []) (.regWr 0x04 (encode .emit)) ∧ RejectedAccess (pending .pack 1 []) (.regWr 0x0C 5) ∧
    RejectedAccess (pending .pack 1 []) (.regWr 0x10 5) ∧ RejectedAccess (pending .pack 1 []) (.cmWr 0 5) ∧
    ¬ RejectedAccess (pending .pack 1 []) (.regWr 0x08 5) ∧ ¬ RejectedAccess (pending .pack 1 []) (.pbRd 0) ∧
    ¬ RejectedAccess (idle []) (.regWr 0x0C 5) ∧ engineTurn (pending .pack 1 [asmWrData 5]) = false :=
  ⟨.inl (by decide), .inr (.inl (by decide)), .inr (.inr ⟨rfl, .inr (.inl rfl)⟩), by simp [RejectedAccess, pending],
    by simp [RejectedAccess, pending], by simp [RejectedAccess, pending], fun h => h, fun h => h,
    fun h => h rfl, by decide⟩

theorem test_witness_NopChangesNothing : (idle [asmCmd .nop]).pend = none ∧ (pending .pack 1 []).pend ≠ none ∧
    (idle [asmCmd .nop]).inbox = .tx (.regWr 0x04 0) :: [] := by decide

/-- Also for EMIT, the acceptances of PACKBIN and PACK, ACLR and ECLR: the three kinds of state their clauses speak of. -/
theorem test_witness_PlaceValidatesThenPlacesOrCaptures :
    (pending .pack 1 []).pend ≠ none ∧ (overflowed []).ovf = true ∧ (overflowed []).pend = none ∧
    ((loaded 0x001FFFFF 1023 []).pend = none ∧ (loaded 0x001FFFFF 1023 []).ovf = false ∧
      (loaded 0x001FFFFF 1023 []).data.toNat < 2 ^ 21) ∧
    ((loaded 0x00200000 1023 []).pend = none ∧ (loaded 0x00200000 1023 []).ovf = false ∧
      2 ^ 21 ≤ (loaded 0x00200000 1023 []).data.toNat) := by decide

theorem test_witness_PlacementSetsExactlyTheFieldBits :
    (loaded 0x001FFFFF 0 []).pend = none ∧ (loaded 0x001FFFFF 0 []).ovf = false ∧ (loaded 0x001FFFFF 0 []).data.toNat < 2 ^ 21 ∧
      (loaded 0x001FFFFF 0 []).acc.extractLsb' ((7 : CamIx).toNat * 21) 21 = 0 ∧ ¬ (147 ≤ 146 ∧ 146 < 168) := by decide

theorem test_witness_PlacementOnStorageWordsAgrees :
    fits 0x001FFFFF = true ∧ (∃ c, bitPos c % 32 > 11) ∧ (∃ c, ¬ bitPos c % 32 > 11) :=
  ⟨by decide, ⟨7, by decide⟩, ⟨2, by decide⟩⟩

theorem test_witness_PlacementsCommuteAndAccumulate :
    [((0 : CamIx), (1 : Word)), (7, 2)].Perm [(7, 2), (0, 1)] ∧ fits 0x0F0F0F = true ∧ fits 0x00F0F0 = true ∧
      (0 : Accum).extractLsb' ((0 : CamIx).toNat * 21) 21 = 0 := by decide

theorem test_witness_UnusedAccumulatorBitsAreNeverEmitted :
    (idle []).pend = none ∧ (idle []).ovf = false ∧ (idle []).acc.extractLsb' 0 168 = (1#192 <<< 168).extractLsb' 0 168 ∧
      (idle []).acc ≠ 1#192 <<< 168 := by decide

/-! ### Witnesses: the long commands -/

theorem test_witness_RecordHoldsTheEightCounts :
    (∀ c, fits ({ idle [] with cm := zeroCm }.count c 1023) = true) ∧ cameras.reverse.Perm cameras ∧ (idle []).ovf = false :=
  ⟨fun c => by rw [zero_count _ rfl]; decide, List.reverse_perm _, rfl⟩

/-- Overflow at the bin's last camera, and success at the largest count. -/
theorem test_witness_PackbinCompletesAllOrNothing :
    ((pending (.packbin 1023) 0 []).pend = some (.packbin 1023) ∧ engineTurn (pending (.packbin 1023) 0 []) = true) ∧
    (2 ^ 21 ≤ ({ pending (.packbin 1023) 0 [] with cm := binCm 1023 (fun c => if c = 7 then 0x200000 else 0) }.count 7 1023).toNat ∧
      ∀ d : CamIx, d < 7 →
        ({ pending (.packbin 1023) 0 [] with cm := binCm 1023 (fun c => if c = 7 then 0x200000 else 0) }.count d 1023).toNat < 2 ^ 21) ∧
    (∀ c, ({ pending (.packbin 1023) 0 [] with cm := binCm 1023 (fun _ => 0x1FFFFF) }.count c 1023).toNat < 2 ^ 21) := by
  decide

/-- Overflow at the matrix's last count, and success. The success clause is also the witness of
PackPutsEveryCountBitInItsPlace, UnpackingAPackGivesTheCountsBack and (with `pending_inv`) of
PackWritesEveryByteOfThePackedBuffer. -/
theorem test_witness_PackCompletesAllOrNothing :
    ((pending .pack 0 []).pend = some .pack ∧ engineTurn (pending .pack 0 []) = true) ∧
    (2 ^ 21 ≤ ({ pending .pack 0 [] with cm := badLastCm }.count 7 1023).toNat ∧
      ∀ (b' : BinIx) (c' : CamIx), b' < 1023 ∨ (b' = 1023 ∧ c' < 7) →
        ({ pending .pack 0 [] with cm := badLastCm }.count c' b').toNat < 2 ^ 21) ∧
    (∀ c b, ({ pending .pack 0 [] with cm := zeroCm }.count c b).toNat < 2 ^ 21) := by
  refine ⟨by decide, ⟨?_, fun b' c' h => ?_⟩, fun c b => ?_⟩
  · rw [badLast_count _ rfl]; decide
  · rw [badLast_count _ rfl, if_neg]
    · decide
    · intro he
      have := c'.isLt
      have := b'.isLt
      simp only [countIndex] at he
      rcases h with h | ⟨h, h'⟩
      · rw [BitVec.lt_def] at h; simp at h; omega
      · rw [BitVec.lt_def] at h'; simp at h'; omega
  · rw [zero_count _ rfl]; decide

theorem sourcePack_fits (m : Matrix) (h : ∀ c b, (m c b).toNat < 2 ^ 21) : ∃ buf, sourcePack m = .ok buf := by
  have hcam : ∀ (b : BinIx) (cs : List CamIx) (a : Accum), ∃ a', cs.foldlM (sourcePlace m b) a = .ok a' := by
    intro b cs
    induction cs with
    | nil => exact fun a => ⟨a, rfl⟩
    | cons c cs ih =>
      intro a
      obtain ⟨a', ha⟩ := ih (placeField a c (m c b))
      refine ⟨a', ?_⟩
      rw [List.foldlM_cons, sourcePlace, if_neg (Nat.not_le.2 (h c b))]
      exact ha
  have hbin : ∀ (bs : List BinIx) (buf : List Byte), ∃ buf', bs.foldlM (sourceBin m) buf = .ok buf' := by
    intro bs
    induction bs with
    | nil => exact fun buf => ⟨buf, rfl⟩
    | cons b bs ih =>
      intro buf
      obtain ⟨a, ha⟩ := hcam b cameras 0
      obtain ⟨buf', hb⟩ := ih (buf ++ serialize a)
      refine ⟨buf', ?_⟩
      rw [List.foldlM_cons, sourceBin, ha]
      exact hb
  exact hbin bins []

theorem sourcePack_first_bad (m : Matrix) (h : 2 ^ 21 ≤ (m 0 0).toNat) : sourcePack m = .error ⟨0, 0, m 0 0⟩ := by
  have hb : sourceBin m [] (BitVec.ofNat 10 0) = .error ⟨0, 0, m 0 0⟩ := by
    have hc : sourcePlace m (BitVec.ofNat 10 0) 0 0 = .error ⟨0, 0, m 0 0⟩ := if_pos h
    rw [sourceBin, cameras_eq, List.foldlM_cons, hc]
    rfl
  rw [sourcePack, bins_eq, List.range_succ_eq_map, List.map_cons, List.foldlM_cons, hb]
  rfl

theorem badFirst_count : State.count { pending .pack 0 [] with cm := [(0, 0x00200000)], acc := 0 } 0 0 = 0x00200000 := by decide

theorem badFirst_sourcePack :
    sourcePack (matrixOf { pending .pack 0 [] with cm := [(0, 0x00200000)], acc := 0 }) = .error ⟨0, 0, 0x00200000⟩ := by
  rw [sourcePack_first_bad _ (by rw [matrixOf, badFirst_count]; decide), matrixOf, badFirst_count]

/-- A matrix that fits and one that does not: `sourcePack` of each is what its clause supposes. -/
theorem test_witness_PackAnswersAsTheSourceDoes :
    (Inv { pending .pack 0 [] with cm := zeroCm, acc := 0 } ∧
      ∃ buf, sourcePack (matrixOf { pending .pack 0 [] with cm := zeroCm, acc := 0 }) = .ok buf) ∧
    (Inv { pending .pack 0 [] with cm := [(0, 0x00200000)], acc := 0 } ∧
      sourcePack (matrixOf { pending .pack 0 [] with cm := [(0, 0x00200000)], acc := 0 }) = .error ⟨0, 0, 0x00200000⟩) :=
  ⟨⟨pending_inv _ _ _ _ _ zeroCm_wf (by decide),
      sourcePack_fits _ (fun c b => by rw [matrixOf, zero_count _ rfl]; decide)⟩,
    pending_inv _ _ _ _ _ (by decide) (by decide), badFirst_sourcePack⟩

theorem test_witness_PackingABinIsIndependentOfTheOthers :
    (∀ c, { pending (.packbin 5) 0 [] with cm := zeroCm }.count c 5 = { pending .pack 0 [] with cm := zeroCm }.count c 5) ∧
    engineTurn (pending (.packbin 5) 0 []) = true ∧ engineTurn (pending .pack 0 []) = true :=
  ⟨fun _ => rfl, by decide, by decide⟩

theorem test_witness_APendingOperationReachesItsCompletion :
    (pending .pack 3 [.poll, .tx (.cmWr 8191 0)]).pend ≠ none ∧
    (∀ x ∈ (pending .pack 3 [.poll, .tx (.cmWr 8191 0)]).inbox, x.wellFormed = true) ∧
    Input.reset ∉ (pending .pack 3 [.poll, .tx (.cmWr 8191 0)]).inbox := by decide

theorem test_witness_ALongCommandsResultDependsOnItsInputsAlone :
    Inv { pending (.packbin 5) 0 [] with cm := zeroCm, acc := 0 } ∧ Inv { pending (.packbin 5) 0 [.poll] with cm := zeroCm, acc := 1 } ∧
    engineTurn (pending (.packbin 5) 0 [.poll]) = true :=
  ⟨pending_inv _ _ _ _ _ zeroCm_wf (by decide), pending_inv _ _ _ _ _ zeroCm_wf (by decide), by decide⟩

/-! ### Witnesses: the host interface -/

/-- Idle, busy before its completion, and busy at its completion: the states the clauses of the host interface speak of. -/
theorem test_witness_host_interface :
    engineTurn (idle [.tx (.regRd 0x20)]) = false ∧ engineTurn (pending .pack 1 [.tx (.regRd 0x34)]) = false ∧
    (pending .pack 1 [.tx (.regRd 0x34)]).pend ≠ none ∧ engineTurn (pending .pack 0 [.tx (.regRd 0x34)]) = true ∧
    engineTurn (pending .pack 1 []) = true := by decide

theorem test_witness_IdleRegisterWritesStoreIssueOrAreIgnored :
    (idle [.tx (.regWr 0x04 0x72)]).pend = none ∧ decode 0x72 = .ok (.place 7) ∧ decode 0x7 = .error .reservedOp ∧
    0x3C ∈ [0x00, 0x08, 0x14, 0x18, 0x1C, 0x20, 0x24, 0x28, 0x2C, 0x30, 0x34, 0x38, 0x3C] := ⟨rfl, rfl, rfl, by decide⟩

theorem test_witness_CountMemoryReadsBackWhatWasWritten :
    (8191 < 8192 ∧ (idle [.tx (.cmWr 8191 0xFFFFFFFF)]).pend = none) ∧ engineTurn (pending .pack 1 [.tx (.cmWr 0 5)]) = false ∧
      engineTurn (pending .pack 1 [.tx (.cmRd 8191)]) = false := by decide

theorem test_witness_PackedBufferReadsAreHiddenWhileBusy :
    engineTurn (idle [.tx (.pbRd 21503)]) = false ∧ engineTurn (pending .pack 1 [.tx (.pbRd 0)]) = false := by decide

theorem test_witness_TransactionsOutsideTheInterfaceAreRefused :
    8191 < 8192 ∧ 21503 < 21504 ∧ (0x06 % 4 ≠ 0 ∨ 0x40 ≤ 0x06) ∧ (0x40 % 4 ≠ 0 ∨ 0x40 ≤ 0x40) ∧
      engineTurn (idle [.tx (.regRd 0x40)]) = false := by decide

theorem test_witness_InputsInsideTheInterfaceAreAlwaysAnswered :
    InputsInside [.tx (.regWr 0x3C 1), .tx (.cmRd 8191), .tx (.pbRd 21503), .poll, .reset] := by
  intro x hx; revert x; decide

theorem test_witness_EveryTransactionInsideTheInterfaceIsAllowedInEveryState :
    (Transaction.regWr 0x3C 1).wellFormed = true ∧ (Transaction.pbRd 21503).wellFormed = true ∧
    (Transaction.cmWr 8192 0).wellFormed = false ∧ (Transaction.regRd 0x40).wellFormed = false := by decide

theorem test_witness_BusyLockHoldsWhileAnOperationIsPending :
    (pending .pack 1 [asmCmd .eclr]).pend ≠ none ∧ engineTurn (pending .pack 1 [asmCmd .eclr]) = false ∧
    (0x3C % 4 = 0 ∧ 0x3C < 0x40 ∧ 0x3C ≠ 0x04 ∧ 0x3C ≠ 0x0C ∧ 0x3C ≠ 0x10) := by decide

theorem test_witness_ReadsAreRepeatableAndWritesIdempotent :
    (Transaction.regRd 0x3C).wellFormed = true ∧ (Transaction.cmRd 8191).wellFormed = true ∧
    (Transaction.pbRd 21503).wellFormed = true ∧ (Transaction.regWr 0x0C 5).wellFormed = true ∧
    (Transaction.cmWr 0 5).wellFormed = true := by decide

/-! ### Witnesses: whole-machine rules -/

/-- An EMIT over a record of ones changes byte 0 of PB. -/
theorem test_witness_OnlyThreeCommandsAndResetWriteThePackedBuffer :
    ∃ t, step { idle [asmCmd .emit] with pb := [(0, 1)] } = .next t ∧
      t.pbByte 0 ≠ { idle [asmCmd .emit] with pb := [(0, 1)] }.pbByte 0 := ⟨_, rfl, by decide⟩

theorem test_witness_NoCommandWritesTheCountMemory :
    ∃ t, step { idle [.tx (.cmWr 8191 1)] with cm := [(8191, 0)] } = .next t ∧
      t.cmWord 8191 ≠ { idle [.tx (.cmWr 8191 1)] with cm := [(8191, 0)] }.cmWord 8191 := ⟨_, rfl, by decide⟩

theorem test_witness_OnlyTheHostChangesDataAndBin :
    (∃ t, step (idle [asmWrData 5]) = .next t ∧ t.data ≠ (idle [asmWrData 5]).data) ∧
    (∃ t, step (idle [asmWrBin 5]) = .next t ∧ t.bin ≠ (idle [asmWrBin 5]).bin) :=
  ⟨⟨_, rfl, by decide⟩, ⟨_, rfl, by decide⟩⟩

theorem test_witness_OnlyTheListedEventsWriteTheAccumulator :
    ∃ t, step { idle [asmCmd .aclr] with acc := 1 } = .next t ∧ t.acc ≠ { idle [asmCmd .aclr] with acc := 1 }.acc :=
  ⟨_, rfl, by decide⟩

theorem test_witness_DoneChangesOnlyAsItsRuleSays :
    ∃ t, step { idle [asmCmd .eclr] with done := true } = .next t ∧ t.done ≠ { idle [asmCmd .eclr] with done := true }.done :=
  ⟨_, rfl, by decide⟩

theorem test_witness_PendingIsSetByAcceptanceAndClearedByCompletion :
    ∃ t, step (idle [asmCmd .pack]) = .next t ∧ t.pend ≠ (idle [asmCmd .pack]).pend := ⟨_, rfl, by decide⟩

theorem test_witness_OverflowAndCommandErrorAreSticky :
    (∃ t, step (overflowed [asmCmd .eclr]) = .next t ∧ (overflowed [asmCmd .eclr]).ovf = true ∧ t.ovf = false) ∧
    (∃ t, step { idle [asmCmd .eclr] with cmdErr := true } = .next t ∧ t.cmdErr = false) ∧
    (Inv used ∧ ∃ t, step used = .next t ∧ used.ovf = true ∧ t.ovf = true) :=
  ⟨⟨_, rfl, rfl, rfl⟩, ⟨_, rfl, rfl⟩, used_inv, _, rfl, rfl, rfl⟩

theorem test_witness_EveryOverflowIsCapturedAndWritesNothing :
    ∃ t, step (loaded 0x00200000 5 [asmCmd (.place 3)]) = .next t ∧ (loaded 0x00200000 5 [asmCmd (.place 3)]).ovf = false ∧
      t.ovf = true := ⟨_, rfl, rfl, rfl⟩

/-! ### Witnesses: reset, idling, the invariant, host programs -/

/-- Also of ResetBlockAcceptsEveryCommand. -/
theorem test_witness_ResetLeavesTheTableOfResetValues :
    engineTurn (pending .pack 1 [.reset]) = false ∧ ∃ t, step (pending .pack 1 [.reset]) = .next t :=
  ⟨by decide, _, rfl⟩

theorem test_witness_AFinishedRunStaysFinished : Finished (idle []) := ⟨rfl, rfl⟩

theorem test_witness_EveryStepKeepsTheInvariant : Inv used ∧ ∃ t, step used = .next t := ⟨used_inv, _, rfl⟩

theorem test_witness_UnusedAccumulatorBitsAreZeroInEveryReachableState :
    ∃ t, Host.Core.run core 2 { State.reset with inbox := [asmWrData 5, asmCmd (.place 7)] } = .next t ∧ t.acc ≠ 0 :=
  ⟨_, rfl, by decide⟩

theorem test_witness_WaitPollsUntilBusyReadsZero :
    (engineTurn (idle [asmWait]) = false ∧ (idle [asmWait]).pend = none) ∧
    (engineTurn (pending .pack 1 [asmWait]) = false ∧ (pending .pack 1 [asmWait]).pend ≠ none) := by decide

theorem test_witness_PackallEndsWithDoneOrOverflow :
    (idle (asmPackall ++ [asmRdStatus])).pend = none ∧ (idle (asmPackall ++ [asmRdStatus])).ovf = false := by decide

theorem test_witness_BothSchedulesOfACountWriteAreAllowed :
    (pending .pack 0 [.tx (.cmWr 8191 5)]).wait = 0 ∧ (pending .pack 1 [.tx (.cmWr 8191 5)]).wait = 1 ∧
      (pending .pack 1 [.tx (.cmWr 8191 5)]).pend = some .pack ∧ (pending .pack 1 [.tx (.cmWr 8191 5)]).cmdErr = false := by
  decide

end Sys2Proof.Tests
end

section
/-! PROOFS. The family 10_state.md: what one step can do to the registers, said once, and from it the invariant of the
machine and the rules on who may change DATA, BIN, acc, the flags and `pend`. -/

namespace Sys2Proof.Machine

/-! ### A command word is the encoding of what it decodes to (30_encoding.md R91, R96) -/

/-- A word with RSV = 0 is laid out from its own fields. -/
theorem commandWord_fields {w : Word} (h : rsvField w = 0) : commandWord (opField w) (camField w) = w := by
  apply BitVec.eq_of_getLsbD_eq
  intro i hi
  by_cases hlow : i < 7
  · simp only [commandWord]
    interval_cases i <;> simp
  · have hrsv : (rsvField w).getLsbD (i - 7) = false := by simp [h]
    have hlt : i - 7 < 25 := by omega
    have hge : 7 ≤ i := by omega
    have hop : ¬ i < 4 := by omega
    have hcam : ¬ i - 4 < 3 := by omega
    simp only [BitVec.getLsbD_extractLsb', hlt, decide_true, Bool.true_and, Nat.add_sub_cancel' hge] at hrsv
    simp [commandWord, hop, hcam, hrsv]

theorem noOperand_ok {w : Word} {i j : Instr} (h : noOperand w i = .ok j) : camField w = 0 ∧ j = i := by
  unfold noOperand at h
  split at h
  · next hc => cases h; exact ⟨hc, rfl⟩
  · cases h

theorem encode_of_noOperand {w : Word} {i j : Instr} {op : BitVec 4} (hrsv : rsvField w = 0)
    (hop : (opField w).toNat = op.toNat) (hi : encode i = commandWord op 0) (h : noOperand w i = .ok j) :
    encode j = w := by
  obtain ⟨hcam, rfl⟩ := noOperand_ok h
  rw [hi, ← BitVec.eq_of_toNat_eq hop, ← hcam, commandWord_fields hrsv]

theorem encode_of_decode {w : Word} {i : Instr} (h : decode w = .ok i) : encode i = w := by
  unfold decode at h
  split at h
  · cases h
  next hrsv =>
    replace hrsv := not_not.1 hrsv
    split at h
    case h_1 hop => exact encode_of_noOperand (op := 0) hrsv hop rfl h
    case h_2 hop => exact encode_of_noOperand (op := 1) hrsv hop rfl h
    case h_3 hop =>
      cases h
      rw [encode, ← BitVec.eq_of_toNat_eq (y := 2) hop, commandWord_fields hrsv]
    case h_4 hop => exact encode_of_noOperand (op := 3) hrsv hop rfl h
    case h_5 hop => exact encode_of_noOperand (op := 4) hrsv hop rfl h
    case h_6 hop => exact encode_of_noOperand (op := 5) hrsv hop rfl h
    case h_7 hop => exact encode_of_noOperand (op := 6) hrsv hop rfl h
    case h_8 => cases h

/-! ### Records keep the unused accumulator bits at 0 (10_state.md R45) -/

theorem placeField_acc_high {a : Accum} {c : CamIx} {v : Word} (hv : fits v = true) (ha : a.extractLsb' 168 24 = 0) :
    (placeField a c v).extractLsb' 168 24 = 0 := by
  rw [acc_high_iff] at ha ⊢
  intro i hi
  rw [getLsbD_placeField_high hv hi, ha i hi]

theorem foldl_placeField_acc_high {f : CamIx → Word} (hf : ∀ c, fits (f c) = true) (cs : List CamIx) {a : Accum}
    (ha : a.extractLsb' 168 24 = 0) : (cs.foldl (fun a c => placeField a c (f c)) a).extractLsb' 168 24 = 0 := by
  induction cs generalizing a with
  | nil => exact ha
  | cons c cs ih => exact ih (placeField_acc_high (hf c) ha)

theorem record_acc_high {s : State} {b : BinIx} (h : ∀ c, fits (s.count c b) = true) :
    (record s b).extractLsb' 168 24 = 0 :=
  foldl_placeField_acc_high h cameras (by decide)

/-! ### What one step can do to the state -/

/-- The steps of the block by their effect, each as the record update it is. All host accesses that store nothing (reads,
polls, ignored writes, rejections) and the idle step are `quiet`: they touch the model's own fields and can set CMD_ERR. -/
inductive StepEffect (s : State) : State → Prop
  | quiet (cmdErr : Bool) (inbox : List Input) (wait : Nat) (replies : List Reply) (hc : s.cmdErr = true → cmdErr = true) :
      StepEffect s { s with cmdErr := cmdErr, inbox := inbox, wait := wait, replies := replies }
  | overflow {c : CamIx} {b : BinIx} {v : Word} (he : engineTurn s = true) (hv : fits v = false) :
      StepEffect s (finishLong (raiseFieldOverflow c b v s))
  | success {base : Nat} {bytes : List Byte} {a : Accum} (he : engineTurn s = true) (hb : base + bytes.length ≤ 21504)
      (ha : a.extractLsb' 168 24 = 0) : StepEffect s (finishLong (publish base bytes a s))
  | reset {rest : List Input} (hx : s.inbox = .reset :: rest) : StepEffect s (resetEvent (takeInput rest s))
  | dataWrite {v : Word} {rest : List Input} (hx : s.inbox = .tx (.regWr 0x0C v) :: rest) (hp : s.pend = none) :
      StepEffect s { takeInput rest s with data := v }
  | binWrite {v : Word} {rest : List Input} (hx : s.inbox = .tx (.regWr 0x10 v) :: rest) (hp : s.pend = none) :
      StepEffect s { takeInput rest s with bin := v.extractLsb' 0 10 }
  | cmWrite {i : Nat} {v : Word} {rest : List Input} (hx : s.inbox = .tx (.cmWr i v) :: rest) (hi : i < 8192)
      (hp : s.pend = none) : StepEffect s { takeInput rest s with cm := s.cm.write i [v] }
  | command {i : Instr} {rest : List Input} (hx : s.inbox = .tx (.regWr 0x04 (encode i)) :: rest) (hp : s.pend = none)
      (ho : s.ovf = false ∨ blockedByOverflow i = false) : StepEffect s (effectOf i (takeInput rest s))

theorem stepEffect_complete {s : State} (he : engineTurn s = true) : StepEffect s (complete s) := by
  obtain ⟨hp, -⟩ := (engineTurn_iff s).1 he
  rcases complete_cases s hp with ⟨c, b, hv, heq⟩ | ⟨b, -, hf, heq⟩ | ⟨-, hf, heq⟩ <;> rw [heq]
  · exact .overflow he hv
  · exact .success he (by simpa using recordIndex_le b) (record_acc_high hf)
  · exact .success he (by simp) (record_acc_high fun c => hf c 1023)

theorem stepEffect_deliver {s t : State} {x : Input} {rest : List Input} (hx : s.inbox = x :: rest)
    (h : deliver x (takeInput rest s) = .next t) : StepEffect s t := by
  rcases deliver_cases h with ⟨-, r, -, rfl⟩ | ⟨-, rfl⟩ | ⟨rfl, rfl⟩ | ⟨-, q, -, rfl⟩ | ⟨-, -, rfl⟩ |
    ⟨v, rfl, hp, rfl⟩ | ⟨v, rfl, hp, rfl⟩ | ⟨i, v, rfl, hi, hp, rfl⟩ | ⟨i, v, rfl, hd, hp, ho, rfl⟩
  · exact .quiet s.cmdErr rest _ _ id
  · exact .quiet s.cmdErr _ _ _ id
  · exact .reset hx
  · exact .quiet true rest _ s.replies fun _ => rfl
  · exact .quiet s.cmdErr rest _ s.replies id
  · exact .dataWrite hx hp
  · exact .binWrite hx hp
  · exact .cmWrite hx hi hp
  · rw [← encode_of_decode hd] at hx
    exact .command hx hp ho

/-- Every step that answers has one of the listed effects. -/
theorem stepEffect_of_step {s t : State} (h : step s = .next t) : StepEffect s t := by
  rcases step_cases h with ⟨he, rfl⟩ | ⟨-, -, rfl⟩ | ⟨x, rest, -, hx, hd⟩
  · exact stepEffect_complete he
  · exact .quiet t.cmdErr t.inbox t.wait t.replies id
  · exact stepEffect_deliver hx hd

/-! ### The invariant -/

/-- The invariant holds right after reset, whatever the counters and the host's lists are. -/
theorem inv_reset (epoch longs : Nat) (inbox : List Input) (replies : List Reply) :
    Inv { State.reset with epoch := epoch, longs := longs, inbox := inbox, replies := replies } where
  cm_wf := reset_cm_wf
  pb_wf := reset_pb_wf
  acc_high := BitVec.extractLsb'_zero
  err_clear := fun _ => ⟨rfl, rfl, rfl⟩
  err_big := nofun
  acc_abandoned := nofun
  pend_clean := fun hp => absurd rfl hp

theorem inv_finishLong {s : State} (h : Inv s) : Inv (finishLong s) :=
  { h with pend_clean := fun hp => absurd rfl hp }

theorem inv_raiseFieldOverflow {s : State} {c : CamIx} {b : BinIx} {v : Word} (h : Inv s) (hp : s.pend = none)
    (hv : fits v = false) : Inv (raiseFieldOverflow c b v s) :=
  { h with
    acc_high := BitVec.extractLsb'_zero
    err_clear := nofun
    err_big := fun _ => (not_fits_iff v).1 hv
    acc_abandoned := fun _ => rfl
    pend_clean := fun hn => absurd hp hn }

theorem inv_publish {s : State} {base : Nat} {bytes : List Byte} {a : Accum} (h : Inv s) (hp : s.pend = none)
    (ho : s.ovf = false) (hb : base + bytes.length ≤ 21504) (ha : a.extractLsb' 168 24 = 0) :
    Inv (publish base bytes a s) :=
  { h with
    pb_wf := Memory.write_wf h.pb_wf hb
    acc_high := ha
    acc_abandoned := fun (hn : s.ovf = true) => absurd (ho.symm.trans hn) nofun
    pend_clean := fun hn => absurd hp hn }

theorem inv_startLong {s : State} {op : LongOp} (h : Inv s) (ho : s.ovf = false) : Inv (startLong op s) :=
  { h with pend_clean := fun _ => ⟨ho, rfl⟩ }

theorem inv_clearErrors {s : State} (h : Inv s) (hp : s.pend = none) : Inv (clearErrors s) :=
  { h with
    err_clear := fun _ => ⟨rfl, rfl, rfl⟩
    err_big := nofun
    acc_abandoned := nofun
    pend_clean := fun hn => absurd hp hn }

theorem inv_placeEffect {s : State} {c : CamIx} (h : Inv s) (hp : s.pend = none) (ho : s.ovf = false) :
    Inv (placeEffect c s) := by
  cases hv : fits s.data with
  | true =>
    rw [placeEffect_fits hv]
    exact { h with
      acc_high := placeField_acc_high hv h.acc_high
      acc_abandoned := fun (hn : s.ovf = true) => absurd (ho.symm.trans hn) nofun }
  | false =>
    rw [placeEffect_overflow hv]
    exact inv_raiseFieldOverflow h hp hv

theorem inv_takeInput {s : State} (h : Inv s) (rest : List Input) : Inv (takeInput rest s) := { h with }

/-- An accepted command keeps the invariant. -/
theorem inv_effectOf {s : State} {i : Instr} (h : Inv s) (hp : s.pend = none)
    (ho : s.ovf = false ∨ blockedByOverflow i = false) : Inv (effectOf i s) := by
  cases i with
  | nop => exact h
  | aclr => exact { h with acc_high := BitVec.extractLsb'_zero, acc_abandoned := fun _ => rfl }
  | place c => exact inv_placeEffect h hp (ho.resolve_right nofun)
  | emit => exact { h with pb_wf := Memory.write_wf h.pb_wf (by simpa using recordIndex_le s.bin) }
  | packbin => exact inv_startLong h (ho.resolve_right nofun)
  | pack => exact inv_startLong h (ho.resolve_right nofun)
  | eclr => exact inv_clearErrors h hp

/-- Each effect of a step keeps the invariant. -/
theorem StepEffect.inv {s t : State} (ht : StepEffect s t) (h : Inv s) : Inv t := by
  cases ht with
  | quiet => exact { h with }
  | overflow _ hv => exact inv_raiseFieldOverflow (inv_finishLong h) rfl hv
  | success he hb ha =>
    obtain ⟨hp, -⟩ := (engineTurn_iff s).1 he
    exact inv_publish (inv_finishLong h) rfl (h.pend_clean hp).1 hb ha
  | reset => exact inv_reset ..
  | dataWrite | binWrite => exact { h with }
  | cmWrite _ hi => exact { h with cm_wf := Memory.write_wf h.cm_wf hi }
  | command _ hp ho => exact inv_effectOf (inv_takeInput h _) hp ho

/-- Settles O53: each of the effects a step can have keeps the invariant. -/
theorem everyStepKeepsTheInvariant : Obligations.EveryStepKeepsTheInvariant := by
  unfold Obligations.EveryStepKeepsTheInvariant
  intro s t h hstep
  exact (stepEffect_of_step hstep).inv h

/-- Settles O52: the inputs to come are not part of the invariant. -/
theorem resetMeetsTheInvariant : Obligations.ResetMeetsTheInvariant := by
  unfold Obligations.ResetMeetsTheInvariant
  intro xs
  exact inv_reset 0 0 xs []

/-- What every step keeps, a run keeps. -/
theorem run_keeps {P : State → Prop} (hstep : ∀ s t, P s → step s = .next t → P t) (n : Nat) {s t : State} (h : P s)
    (hrun : Host.Core.run core n s = .next t) : P t := by
  induction n generalizing s with
  | zero => cases hrun; exact h
  | succ n ih =>
    obtain ⟨u, hu, hrun⟩ := run_next hrun
    exact ih (hstep s u h hu) hrun

/-- Settles O54: the invariant holds at reset and every step of the run keeps it. -/
theorem unusedAccumulatorBitsAreZeroInEveryReachableState :
    Obligations.UnusedAccumulatorBitsAreZeroInEveryReachableState := by
  unfold Obligations.UnusedAccumulatorBitsAreZeroInEveryReachableState
  intro xs n t hrun
  exact (run_keeps everyStepKeepsTheInvariant n (resetMeetsTheInvariant xs) hrun).acc_high

/-! ### Who may change which register -/

@[simp] theorem placeEffect_data (c : CamIx) (s : State) : (placeEffect c s).data = s.data := by
  unfold placeEffect; split <;> rfl

@[simp] theorem placeEffect_bin (c : CamIx) (s : State) : (placeEffect c s).bin = s.bin := by
  unfold placeEffect; split <;> rfl

@[simp] theorem placeEffect_done (c : CamIx) (s : State) : (placeEffect c s).done = s.done := by
  unfold placeEffect; split <;> rfl

@[simp] theorem placeEffect_cmdErr (c : CamIx) (s : State) : (placeEffect c s).cmdErr = s.cmdErr := by
  unfold placeEffect; split <;> rfl

@[simp] theorem placeEffect_pend (c : CamIx) (s : State) : (placeEffect c s).pend = s.pend := by
  unfold placeEffect; split <;> rfl

@[simp] theorem effectOf_data (i : Instr) (s : State) : (effectOf i s).data = s.data := by
  cases i with
  | place c => exact placeEffect_data c s
  | _ => rfl

@[simp] theorem effectOf_bin (i : Instr) (s : State) : (effectOf i s).bin = s.bin := by
  cases i with
  | place c => exact placeEffect_bin c s
  | _ => rfl

/-- Only ECLR clears an error flag. -/
theorem effectOf_keeps_error_flags {i : Instr} (hi : i ≠ .eclr) (s : State) :
    (s.ovf = true → (effectOf i s).ovf = true) ∧ (s.cmdErr = true → (effectOf i s).cmdErr = true) := by
  cases i with
  | eclr => exact absurd rfl hi
  | place c =>
    refine ⟨fun ho => ?_, fun hc => (placeEffect_cmdErr c s).trans hc⟩
    simp only [effectOf, placeEffect]
    split
    · exact ho
    · rfl
  | _ => exact ⟨id, id⟩

/-- Settles O43: no effect of a step other than the two host writes and reset touches DATA or BIN. -/
theorem onlyTheHostChangesDataAndBin : Obligations.OnlyTheHostChangesDataAndBin := by
  unfold Obligations.OnlyTheHostChangesDataAndBin
  refine ⟨fun i s t h => ?_, fun s t h => ?_⟩
  · rcases exec_cases h with rfl | ⟨-, -, rfl⟩
    · exact ⟨rfl, rfl⟩
    · exact ⟨effectOf_data i s, effectOf_bin i s⟩
  · cases stepEffect_of_step h with
    | quiet | overflow | success | cmWrite => exact ⟨absurd rfl, absurd rfl⟩
    | reset hx => exact ⟨fun _ => .inr ⟨_, hx⟩, fun _ => .inr ⟨_, hx⟩⟩
    | dataWrite hx hp => exact ⟨fun _ => .inl ⟨_, hx, hp⟩, absurd rfl⟩
    | binWrite hx hp => exact ⟨absurd rfl, fun _ => .inl ⟨_, _, hx, hp, rfl⟩⟩
    | command => exact ⟨absurd (effectOf_data _ _), absurd (effectOf_bin _ _)⟩

/-- Settles O44: of the commands only ACLR and PLACE touch acc, and PLACE is accepted only with OVF = 0. -/
theorem onlyTheListedEventsWriteTheAccumulator : Obligations.OnlyTheListedEventsWriteTheAccumulator := by
  unfold Obligations.OnlyTheListedEventsWriteTheAccumulator
  intro s t h hne
  cases stepEffect_of_step h with
  | quiet | dataWrite | binWrite | cmWrite => exact absurd rfl hne
  | overflow he | success he => exact .inl ⟨he, ((engineTurn_iff s).1 he).1⟩
  | reset hx => exact .inr (.inr (.inr ⟨_, hx⟩))
  | @command i _ hx hp ho =>
    cases i with
    | aclr => exact .inr (.inl ⟨_, hx, hp, rfl⟩)
    | place c => exact .inr (.inr (.inl ⟨_, c, hx, hp, ho.resolve_right nofun⟩))
    | nop | emit | packbin | pack | eclr => exact absurd rfl hne

/-- Settles O45: a success sets DONE and leaves OVF; the long commands, ECLR and reset clear it. -/
theorem doneChangesOnlyAsItsRuleSays : Obligations.DoneChangesOnlyAsItsRuleSays := by
  unfold Obligations.DoneChangesOnlyAsItsRuleSays
  intro s t h hne
  cases stepEffect_of_step h with
  | quiet | overflow | dataWrite | binWrite | cmWrite => exact absurd rfl hne
  | success he => exact .inl ⟨rfl, he, rfl⟩
  | reset hx => exact .inr (.inr ⟨rfl, _, hx⟩)
  | @command i _ hx hp =>
    cases i with
    | packbin => exact .inr (.inl ⟨rfl, _, hp, .inl hx⟩)
    | pack => exact .inr (.inl ⟨rfl, _, hp, .inr (.inl hx)⟩)
    | eclr => exact .inr (.inl ⟨rfl, _, hp, .inr (.inr hx)⟩)
    | place c => exact absurd (placeEffect_done c _) hne
    | nop | aclr | emit => exact absurd rfl hne

/-- Settles O46: only the two long commands set `pend`, and they are accepted only in an idle block with OVF = 0. -/
theorem pendingIsSetByAcceptanceAndClearedByCompletion :
    Obligations.PendingIsSetByAcceptanceAndClearedByCompletion := by
  unfold Obligations.PendingIsSetByAcceptanceAndClearedByCompletion
  intro s t h hne
  cases stepEffect_of_step h with
  | quiet | dataWrite | binWrite | cmWrite => exact absurd rfl hne
  | overflow he | success he => exact .inr (.inl ⟨he, rfl⟩)
  | reset hx => exact .inr (.inr ⟨rfl, _, hx⟩)
  | @command i _ hx hp ho =>
    cases i with
    | packbin => exact .inl ⟨hp, ho.resolve_right nofun, _, .inl ⟨hx, rfl⟩⟩
    | pack => exact .inl ⟨hp, ho.resolve_right nofun, _, .inr ⟨hx, rfl⟩⟩
    | place c => exact absurd (placeEffect_pend c _) hne
    | nop | aclr | emit | eclr => exact absurd rfl hne

/-- A step that is neither an accepted ECLR nor a reset keeps the error flags that are set. -/
theorem StepEffect.keeps_error_flags {s t : State} (h : StepEffect s t) :
    ((s.ovf = true → t.ovf = true) ∧ (s.cmdErr = true → t.cmdErr = true)) ∨
      (∃ rest, s.inbox = .tx (.regWr 0x04 (encode .eclr)) :: rest ∧ s.pend = none) ∨
        ∃ rest, s.inbox = .reset :: rest := by
  cases h with
  | quiet _ _ _ _ hc => exact .inl ⟨id, hc⟩
  | overflow => exact .inl ⟨fun _ => rfl, id⟩
  | success | dataWrite | binWrite | cmWrite => exact .inl ⟨id, id⟩
  | reset hx => exact .inr (.inr ⟨_, hx⟩)
  | @command i _ hx hp =>
    by_cases hi : i = .eclr
    · subst hi; exact .inr (.inl ⟨_, hx, hp⟩)
    · exact .inl (effectOf_keeps_error_flags hi (takeInput _ s))

/-- While OVF stays 1 the error registers stay: an engine's step needs OVF = 0, as an accepted PLACE does. -/
theorem StepEffect.keeps_first_overflow {s t : State} (h : StepEffect s t) (hinv : Inv s) (hs : s.ovf = true)
    (ht : t.ovf = true) : t.errCam = s.errCam ∧ t.errBin = s.errBin ∧ t.errVal = s.errVal := by
  cases h with
  | quiet | success | dataWrite | binWrite | cmWrite => exact ⟨rfl, rfl, rfl⟩
  | overflow he =>
    obtain ⟨hp, -⟩ := (engineTurn_iff s).1 he
    simp [(hinv.pend_clean hp).1] at hs
  | reset => cases ht
  | @command i _ hx hp ho =>
    cases i with
    | place c => simp [ho.resolve_right nofun] at hs
    | eclr => cases ht
    | nop | aclr | emit | packbin | pack => exact ⟨rfl, rfl, rfl⟩

/-- Settles O47, from what each effect of a step keeps of the error flags and of the error registers. -/
theorem overflowAndCommandErrorAreSticky : Obligations.OverflowAndCommandErrorAreSticky := by
  unfold Obligations.OverflowAndCommandErrorAreSticky
  intro s t h
  have heff := stepEffect_of_step h
  refine ⟨fun hcleared => heff.keeps_error_flags.resolve_left fun ⟨hovf, hcmd⟩ => ?_, heff.keeps_first_overflow⟩
  rcases hcleared with ⟨hs, ht⟩ | ⟨hs, ht⟩
  · simp [hovf hs] at ht
  · simp [hcmd hs] at ht

/-! ### The register window (10_state.md R24 to R28) -/

theorem step_regRd {s : State} {rest : List Input} {off : Nat} {r : Slot} (he : engineTurn s = false)
    (hx : s.inbox = .tx (.regRd off) :: rest) (hr : slotAt off = some r) :
    step s = .next { takeInput rest s with replies := .word (regValue s r) :: s.replies } := by
  simp only [step_tx he hx, transact, hr]
  rfl

theorem step_regWr {s : State} {rest : List Input} {off : Nat} {v : Word} {r : Slot} (he : engineTurn s = false)
    (hx : s.inbox = .tx (.regWr off v) :: rest) (hr : slotAt off = some r) :
    step s = regWrite r v (takeInput rest s) := by
  simp only [step_tx he hx, transact, hr]

/-- In an idle block a legal word written to CMD runs the command it decodes to. -/
theorem step_command {s : State} {rest : List Input} {w : Word} {i : Instr} (hp : s.pend = none)
    (hx : s.inbox = .tx (.regWr 0x04 w) :: rest) (hd : decode w = .ok i) : step s = exec i (takeInput rest s) :=
  (step_regWr (engineTurn_idle hp) hx rfl).trans (issue_command _ hp hd)

theorem regValue_acc (s : State) (k : Fin 6) :
    regValue s (.acc k) = if s.pend = none then s.acc.extractLsb' (32 * k) 32 else 0 := by
  by_cases hp : s.pend = none
  · simp [regValue, (not_busy_iff s).2 hp, hp, accWord]
  · simp [regValue, (busy_iff s).2 hp, hp]

theorem paramWord_eq : paramWord = 0x04000815 := by decide

/-- Settles O32: each offset has its slot, and the slot its value. -/
theorem registerReadsReturnTheWindow : Obligations.RegisterReadsReturnTheWindow := by
  unfold Obligations.RegisterReadsReturnTheWindow
  intro s rest off v he hx hmem
  obtain ⟨r, hr, rfl⟩ : ∃ r, slotAt off = some r ∧ v = regValue s r := by
    simp only [List.mem_cons, List.not_mem_nil, or_false, Prod.mk.injEq] at hmem
    rcases hmem with ⟨rfl, rfl⟩ | ⟨rfl, rfl⟩ | ⟨rfl, rfl⟩ | ⟨rfl, rfl⟩ | ⟨rfl, rfl⟩ | ⟨rfl, rfl⟩ | ⟨rfl, rfl⟩ | ⟨rfl, rfl⟩ |
      ⟨rfl, rfl⟩ | ⟨rfl, rfl⟩ | ⟨rfl, rfl⟩ | ⟨rfl, rfl⟩ | ⟨rfl, rfl⟩ | ⟨rfl, rfl⟩ | ⟨rfl, rfl⟩ | ⟨rfl, rfl⟩
    exacts [⟨.param, rfl, paramWord_eq.symm⟩, ⟨.cmd, rfl, rfl⟩, ⟨.status, rfl, rfl⟩, ⟨.data, rfl, rfl⟩, ⟨.bin, rfl, rfl⟩,
      ⟨.errLoc, rfl, rfl⟩, ⟨.errVal, rfl, rfl⟩, ⟨.reserved, rfl, rfl⟩, ⟨.acc 0, rfl, (regValue_acc s 0).symm⟩,
      ⟨.acc 1, rfl, (regValue_acc s 1).symm⟩, ⟨.acc 2, rfl, (regValue_acc s 2).symm⟩,
      ⟨.acc 3, rfl, (regValue_acc s 3).symm⟩, ⟨.acc 4, rfl, (regValue_acc s 4).symm⟩,
      ⟨.acc 5, rfl, (regValue_acc s 5).symm⟩, ⟨.reserved, rfl, rfl⟩, ⟨.reserved, rfl, rfl⟩]
  exact step_regRd he hx hr

theorem regWrite_data_idle {s : State} (hp : s.pend = none) (v : Word) :
    regWrite .data v s = .next { s with data := v } := by simp [regWrite, (not_busy_iff s).2 hp]

theorem regWrite_bin_idle {s : State} (hp : s.pend = none) (v : Word) :
    regWrite .bin v s = .next { s with bin := v.extractLsb' 0 10 } := by simp [regWrite, (not_busy_iff s).2 hp]

/-- Settles O34: each offset has its slot, and an idle block writes the slot as its rule says. -/
theorem idleRegisterWritesStoreIssueOrAreIgnored : Obligations.IdleRegisterWritesStoreIssueOrAreIgnored := by
  unfold Obligations.IdleRegisterWritesStoreIssueOrAreIgnored
  intro s rest off v hp hx
  have he := engineTurn_idle hp
  refine ⟨?_, ?_, ?_, ?_, fun hoff => ?_⟩
  · rintro rfl
    rw [step_regWr (r := .data) he hx rfl, regWrite_data_idle (s := takeInput rest s) hp]
  · rintro rfl
    rw [step_regWr (r := .bin) he hx rfl, regWrite_bin_idle (s := takeInput rest s) hp]
  · rintro rfl i hd
    exact step_command hp hx hd
  · rintro rfl e hd
    exact (step_regWr he hx rfl).trans (issue_illegal _ hp hd)
  · simp only [List.mem_cons, List.not_mem_nil, or_false] at hoff
    rcases hoff with rfl | rfl | rfl | rfl | rfl | rfl | rfl | rfl | rfl | rfl | rfl | rfl | rfl <;>
      exact step_regWr he hx rfl

/-- Placing a word in an idle block changes nothing but the first input. -/
theorem takeInput_issueNext {s : State} (hp : s.pend = none) (w : Word) :
    takeInput s.inbox (issueNext s w) = takeInput s.inbox s := by
  simp [takeInput, issueNext, (not_busy_iff s).2 hp]

/-- Settles O5: a word placed by `withFetchWord` stands first in line, as one the host writes does. -/
theorem stepRunsTheDecodedCommand : Obligations.StepRunsTheDecodedCommand := by
  unfold Obligations.StepRunsTheDecodedCommand
  intro s w i hp hd
  have hword : BitVec.ofNat 32 (w.toNat % 2 ^ 32) = w := by
    rw [Nat.mod_eq_of_lt w.isLt, BitVec.ofNat_toNat, BitVec.setWidth_eq]
  refine ⟨fun _ hx => step_command hp hx hd, ?_⟩
  rw [State.withFetchWord, hword, step_command (s := issueNext s w) hp rfl hd, takeInput_issueNext hp]

/-! ### The bits of STATUS, BIN and ERR_LOC -/

@[simp] theorem getLsbD_flagBit (f : Bool) (i : Nat) : (flagBit f).getLsbD i = (decide (i = 0) && f) := by
  by_cases hi : i = 0
  · subst hi; cases f <;> rfl
  · cases f <;> simp [flagBit, hi]

theorem getLsbD_statusWord (s : State) (i : Nat) :
    (statusWord s).getLsbD i =
      (decide (i = 3) && s.cmdErr || decide (i = 2) && s.ovf || decide (i = 1) && s.done || decide (i = 0) && s.busy) := by
  simp only [statusWord, BitVec.getLsbD_or, BitVec.getLsbD_shiftLeft, getLsbD_flagBit]
  by_cases hi : i < 4
  · interval_cases i <;> simp
  · obtain ⟨k, rfl⟩ := Nat.exists_eq_add_of_le' (Nat.le_of_not_lt hi)
    simp

theorem statusWord_reserved (s : State) : (statusWord s).extractLsb' 4 28 = 0 := by
  apply BitVec.eq_of_getLsbD_eq
  intro i _
  have h1 : ¬ 4 + i = 3 ∧ ¬ 4 + i = 2 ∧ ¬ 4 + i = 1 ∧ ¬ 4 + i = 0 := by omega
  simp [getLsbD_statusWord, h1]

theorem getLsbD_errLocWord (s : State) (i : Nat) :
    (errLocWord s).getLsbD i = (decide (16 ≤ i) && s.errBin.getLsbD (i - 16) || s.errCam.getLsbD i) := by
  by_cases hi : i < 32
  · by_cases h : i < 16
    · simp [errLocWord, hi, h, Nat.not_le.2 h]
    · simp [errLocWord, hi, h, Nat.not_lt.1 h]
  · rw [BitVec.getLsbD_of_ge _ _ (by omega), BitVec.getLsbD_of_ge s.errBin _ (by omega),
      BitVec.getLsbD_of_ge s.errCam _ (by omega)]
    simp

/-- Settles O33: bit by bit, each word is its fields at their places. -/
theorem statusBinAndErrLocHaveTheirFields : Obligations.StatusBinAndErrLocHaveTheirFields := by
  unfold Obligations.StatusBinAndErrLocHaveTheirFields
  intro s
  refine ⟨?_, ?_, ?_, ?_, statusWord_reserved s, ?_, ?_, ?_, ?_, ?_, ?_⟩
  · rw [getLsbD_statusWord]; simp [busy_iff]
  · rw [getLsbD_statusWord]; simp
  · rw [getLsbD_statusWord]; simp
  · rw [getLsbD_statusWord]; simp
  all_goals
    apply BitVec.eq_of_getLsbD_eq
    intro i hi
  · have hlt : i < 32 := by omega
    simp [binWord, hi, hlt]
  · simp [binWord]
  · have : ¬ 16 ≤ i := by omega
    simp [getLsbD_errLocWord, hi, this]
  · have : ¬ 16 ≤ 3 + i := by omega
    simp [getLsbD_errLocWord, hi, this]
  · have hcam := BitVec.getLsbD_of_ge s.errCam (16 + i) (by omega)
    simp [getLsbD_errLocWord, hi, hcam]
  · have hbin := BitVec.getLsbD_of_ge s.errBin (26 + i - 16) (by omega)
    have hcam := BitVec.getLsbD_of_ge s.errCam (26 + i) (by omega)
    simp [getLsbD_errLocWord, hi, hbin, hcam]

/-! ### Reset (10_state.md R47) -/

/-- Settles O49: a step that takes the reset input leaves the reset event's state, which lists no cell of CM or PB. -/
theorem resetLeavesTheTableOfResetValues : Obligations.ResetLeavesTheTableOfResetValues := by
  unfold Obligations.ResetLeavesTheTableOfResetValues
  have hstatus : statusWord State.reset = 0 := by decide
  have herrLoc : errLocWord State.reset = 0 := by decide
  refine ⟨fun s rest he hx => ⟨resetEvent (takeInput rest s), step_input he hx, ?_⟩, ?_⟩
  · exact ⟨hstatus, rfl, rfl, herrLoc, rfl, rfl, rfl, fun _ => rfl, fun _ => rfl⟩
  · exact ⟨hstatus, rfl, rfl, herrLoc, rfl, rfl, rfl⟩

end Sys2Proof.Machine
end

section
/-! PROOFS. The family 20_memory.md: what each memory transaction answers, what a command and a completion leave alone,
where PACK puts the bits of the counts, and from these the rules of CM, PB, the busy lock and the interface's bounds. -/

namespace Sys2Proof.Machine

/-! ### One equation per memory transaction (20_memory.md R62, R65, R76) -/

theorem transact_cmRd {i : Nat} (hi : i < 8192) (s : State) :
    transact (.cmRd i) s = .next (answer (.word (s.cmWord i)) s) := if_pos hi

theorem transact_cmWr {i : Nat} (hi : i < 8192) (v : Word) (s : State) :
    transact (.cmWr i v) s = .next (cmWrite i v s) := if_pos hi

theorem transact_pbRd {j : Nat} (hj : j < 21504) (s : State) :
    transact (.pbRd j) s = .next (answer (.byte (pbValue s j)) s) := if_pos hj

theorem cmWrite_idle {s : State} (hp : s.pend = none) (i : Nat) (v : Word) :
    cmWrite i v s = { s with cm := s.cm.write i [v] } := by simp [cmWrite, (not_busy_iff s).2 hp]

theorem cmWrite_busy {s : State} (hp : s.pend ≠ none) (i : Nat) (v : Word) :
    cmWrite i v s = { s with cmdErr := true } := by simp [cmWrite, (busy_iff s).2 hp, raiseCmdReject]

theorem cmWord_cmWrite_idle {s : State} (hp : s.pend = none) (i : Nat) (v : Word) (j : Nat) :
    (cmWrite i v s).cmWord j = if j = i then v else s.cmWord j := by
  rw [cmWrite_idle hp]
  exact State.cmWord_write s { s with cm := s.cm.write i [v] } rfl rfl j

@[simp] theorem cmWrite_pb (i : Nat) (v : Word) (s : State) : (cmWrite i v s).pb = s.pb := by
  unfold cmWrite; split <;> rfl

theorem pbValue_idle {s : State} (hp : s.pend = none) (j : Nat) : pbValue s j = s.pbByte j := by
  simp [pbValue, (not_busy_iff s).2 hp]

theorem pbValue_busy {s : State} (hp : s.pend ≠ none) (j : Nat) : pbValue s j = 0 := by
  simp [pbValue, (busy_iff s).2 hp]

/-! ### The same as steps -/

section steps

variable {s : State} {rest : List Input} (he : engineTurn s = false)
include he

theorem step_cmRd {i : Nat} (hi : i < 8192) (hx : s.inbox = .tx (.cmRd i) :: rest) :
    step s = .next { takeInput rest s with replies := .word (s.cmWord i) :: s.replies } :=
  (step_tx he hx).trans (transact_cmRd hi _)

theorem step_cmWr {i : Nat} {v : Word} (hi : i < 8192) (hx : s.inbox = .tx (.cmWr i v) :: rest) :
    step s = .next (cmWrite i v (takeInput rest s)) :=
  (step_tx he hx).trans (transact_cmWr hi v _)

theorem step_cmWr_busy {i : Nat} {v : Word} (hi : i < 8192) (hp : s.pend ≠ none)
    (hx : s.inbox = .tx (.cmWr i v) :: rest) : step s = .next { takeInput rest s with cmdErr := true } := by
  rw [step_cmWr he hi hx, cmWrite_busy (s := takeInput rest s) hp]

theorem step_pbRd {j : Nat} (hj : j < 21504) (hx : s.inbox = .tx (.pbRd j) :: rest) :
    step s = .next { takeInput rest s with replies := .byte (pbValue s j) :: s.replies } :=
  (step_tx he hx).trans (transact_pbRd hj _)

theorem step_pbRd_busy {j : Nat} (hj : j < 21504) (hp : s.pend ≠ none) (hx : s.inbox = .tx (.pbRd j) :: rest) :
    step s = .next { takeInput rest s with replies := .byte 0 :: s.replies } := by
  rw [step_pbRd he hj hx, pbValue_busy hp]

end steps

/-- Settles O35: what the stored word leaves of the others is the law of memory. -/
theorem countMemoryReadsBackWhatWasWritten : Obligations.CountMemoryReadsBackWhatWasWritten := by
  unfold Obligations.CountMemoryReadsBackWhatWasWritten
  intro s rest i hi he
  refine ⟨fun v hp hx => ?_, fun v hp hx => step_cmWr_busy he hi hp hx, fun hx => step_cmRd he hi hx⟩
  have hread := cmWord_cmWrite_idle (s := takeInput rest s) hp i v
  refine ⟨_, step_cmWr he hi hx, ?_, (hread i).trans (if_pos rfl), fun j hj => (hread j).trans (if_neg hj)⟩
  rw [cmWrite_idle (s := takeInput rest s) hp]

/-- Settles O36: of the transactions only a register write to CMD can reach a command. -/
theorem packedBufferReadsAreHiddenWhileBusy : Obligations.PackedBufferReadsAreHiddenWhileBusy := by
  unfold Obligations.PackedBufferReadsAreHiddenWhileBusy
  refine ⟨fun s rest j hj he hx => ⟨fun hp => ?_, fun hp => step_pbRd_busy he hj hp hx⟩, fun s t tr hcmd h => ?_⟩
  · rw [step_pbRd he hj hx, pbValue_idle hp]
  · rcases transact_cases h with ⟨r, rfl⟩ | ⟨off, v, r, rfl, hr, hw⟩ | ⟨i, v, -, -, rfl⟩
    · rfl
    · rcases regWrite_cases hw with ⟨q, rfl⟩ | rfl | ⟨-, -, rfl⟩ | ⟨-, -, rfl⟩ | ⟨rfl, -⟩
      · rfl
      · rfl
      · rfl
      · rfl
      · exact absurd (congrArg (Transaction.regWr · v) (slotAt_cmd hr)) (hcmd v)
    · exact cmWrite_pb i v s

/-! ### The bounds of the interface (20_memory.md R68, R69) -/

theorem slotAt_outside {off : Nat} (h : off % 4 ≠ 0 ∨ 0x40 ≤ off) : slotAt off = none := by
  rw [← Option.isSome_eq_false_iff.trans Option.isNone_iff_eq_none, slotAt_isSome]
  rcases h with h | h
  · simp [h]
  · simp [Nat.not_lt.2 h]

theorem slotAt_inside {off : Nat} (h4 : off % 4 = 0) (hlt : off < 0x40) : ∃ r, slotAt off = some r :=
  Option.isSome_iff_exists.1 (by simp [slotAt_isSome, h4, hlt])

/-- Settles O37: there is no slot at such an offset, and the index tests fail. -/
theorem transactionsOutsideTheInterfaceAreRefused : Obligations.TransactionsOutsideTheInterfaceAreRefused := by
  unfold Obligations.TransactionsOutsideTheInterfaceAreRefused
  intro s rest he
  refine ⟨fun i hi hx => ?_, fun i v hi hx => ?_, fun j hj hx => ?_, fun off hoff hx => ?_, fun off v hoff hx => ?_⟩
  · exact (step_tx he hx).trans (if_neg (Nat.not_lt.2 hi))
  · exact (step_tx he hx).trans (if_neg (Nat.not_lt.2 hi))
  · exact (step_tx he hx).trans (if_neg (Nat.not_lt.2 hj))
  · simp only [step_tx he hx, transact, slotAt_outside hoff]
  · simp only [step_tx he hx, transact, slotAt_outside hoff]

/-! ### What a command leaves alone -/

@[simp] theorem placeEffect_cm (c : CamIx) (s : State) : (placeEffect c s).cm = s.cm := by
  unfold placeEffect; split <;> rfl

@[simp] theorem placeEffect_pb (c : CamIx) (s : State) : (placeEffect c s).pb = s.pb := by
  unfold placeEffect; split <;> rfl

@[simp] theorem placeEffect_epoch (c : CamIx) (s : State) : (placeEffect c s).epoch = s.epoch := by
  unfold placeEffect; split <;> rfl

@[simp] theorem placeEffect_inbox (c : CamIx) (s : State) : (placeEffect c s).inbox = s.inbox := by
  unfold placeEffect; split <;> rfl

@[simp] theorem effectOf_cm (i : Instr) (s : State) : (effectOf i s).cm = s.cm := by
  cases i with
  | place c => exact placeEffect_cm c s
  | _ => rfl

@[simp] theorem effectOf_epoch (i : Instr) (s : State) : (effectOf i s).epoch = s.epoch := by
  cases i with
  | place c => exact placeEffect_epoch c s
  | _ => rfl

@[simp] theorem effectOf_inbox (i : Instr) (s : State) : (effectOf i s).inbox = s.inbox := by
  cases i with
  | place c => exact placeEffect_inbox c s
  | _ => rfl

/-- Of the commands' effects only EMIT's writes PB; the long commands write it at their completion. -/
theorem effectOf_pb {i : Instr} (hi : i ≠ .emit) (s : State) : (effectOf i s).pb = s.pb := by
  cases i with
  | emit => exact absurd rfl hi
  | place c => exact placeEffect_pb c s
  | _ => rfl

/-- Settles O42: a command's effect keeps CM and its draw, and of the effects of a step only the CM write and reset do not. -/
theorem noCommandWritesTheCountMemory : Obligations.NoCommandWritesTheCountMemory := by
  unfold Obligations.NoCommandWritesTheCountMemory
  refine ⟨fun i s t h => ?_, fun s t i h hne => ?_⟩
  · rcases exec_cases h with rfl | ⟨-, -, rfl⟩
    · exact ⟨rfl, rfl⟩
    · exact ⟨effectOf_cm i s, effectOf_epoch i s⟩
  · cases stepEffect_of_step h with
    | quiet | overflow | success | dataWrite | binWrite => exact absurd rfl hne
    | reset hx => exact .inr ⟨_, hx⟩
    | command =>
      exact absurd (congrFun (State.cmWord_congr (effectOf_cm _ (takeInput _ s)) (effectOf_epoch _ _)) i) hne
    | @cmWrite k v rest hx _ hp =>
      have hread := State.cmWord_write s { takeInput rest s with cm := s.cm.write k [v] } rfl rfl i
      by_cases hik : i = k
      · subst hik
        exact .inl ⟨rest, v, hx, hp, hread.trans (if_pos rfl)⟩
      · exact absurd (hread.trans (if_neg hik)) hne

/-! ### What a completion leaves alone (41_matrix_packing.md R145, R147) -/

/-- A completion ends the operation; it can write the results, DONE, OVF and the error registers, and nothing else. -/
theorem complete_frame (s : State) :
    complete s = { s with
      done := (complete s).done, ovf := (complete s).ovf, errCam := (complete s).errCam, errBin := (complete s).errBin,
      errVal := (complete s).errVal, acc := (complete s).acc, pb := (complete s).pb, pend := none,
      wait := (complete s).wait } := by
  by_cases hp : s.pend = none
  · have hid : complete s = s := by simp [complete, hp]
    rw [hid, ← hp]
  · rcases complete_cases s hp with ⟨c, b, -, heq⟩ | ⟨b, -, -, heq⟩ | ⟨-, -, heq⟩ <;> rw [heq] <;> rfl

@[simp] theorem complete_pend (s : State) : (complete s).pend = none := by rw [complete_frame]

@[simp] theorem complete_inbox (s : State) : (complete s).inbox = s.inbox := by rw [complete_frame]

@[simp] theorem complete_cmdErr (s : State) : (complete s).cmdErr = s.cmdErr := by rw [complete_frame]

@[simp] theorem complete_epoch (s : State) : (complete s).epoch = s.epoch := by rw [complete_frame]

@[simp] theorem complete_cmWord (s : State) : (complete s).cmWord = s.cmWord := by
  rw [complete_frame]
  rfl

/-- Settles O57: with the completion first the write finds an idle block; with the write first it finds the lock. -/
theorem bothSchedulesOfACountWriteAreAllowed : Obligations.BothSchedulesOfACountWriteAreAllowed := by
  unfold Obligations.BothSchedulesOfACountWriteAreAllowed
  intro s i v hi hpack hcmd hx
  have hp : s.pend ≠ none := by simp [hpack]
  refine ⟨fun hw => ?_, fun hw => ?_⟩
  · have hfirst := step_engine ((engineTurn_iff s).2 ⟨hp, .inl hw⟩)
    have hidle := complete_pend s
    have hsecond := step_cmWr (engineTurn_idle hidle) hi ((complete_inbox s).trans hx)
    refine ⟨_, (run_step 1 hfirst).trans (run_step 0 hsecond), ?_, ?_, ?_⟩
    · rw [cmWrite_idle (s := takeInput [] (complete s)) hidle]
      exact hidle
    · rw [cmWrite_idle (s := takeInput [] (complete s)) hidle]
      exact (complete_cmdErr s).trans hcmd
    · rw [cmWord_cmWrite_idle (s := takeInput [] (complete s)) hidle, if_pos rfl]
  · have he : engineTurn s = false := by simp [engineTurn, hw, hx]
    have hfirst := step_cmWr_busy he hi hp hx
    have hsecond := step_engine ((engineTurn_iff { takeInput [] s with cmdErr := true }).2 ⟨hp, .inr rfl⟩)
    refine ⟨_, (run_step 1 hfirst).trans (run_step 0 hsecond), complete_pend _, complete_cmdErr _, ?_⟩
    rw [complete_cmWord]
    rfl

/-! ### Inputs to come (20_memory.md R84) -/

/-- An input is consumed, except that a poll that reads BUSY comes again. -/
theorem deliver_inbox {x : Input} {s t : State} (h : deliver x s = .next t) :
    t.inbox = s.inbox ∨ t.inbox = .poll :: s.inbox := by
  rcases deliver_cases h with ⟨-, r, -, rfl⟩ | ⟨-, rfl⟩ | ⟨-, rfl⟩ | ⟨-, q, -, rfl⟩ | ⟨-, -, rfl⟩ | ⟨v, -, -, rfl⟩ |
    ⟨v, -, -, rfl⟩ | ⟨i, v, -, -, -, rfl⟩ | ⟨i, v, -, -, -, -, rfl⟩
  · exact .inl rfl
  · by_cases hb : s.busy = true
    · exact .inr (if_pos hb)
    · exact .inl (if_neg hb)
  · exact .inl rfl
  · exact .inl rfl
  · exact .inl rfl
  · exact .inl rfl
  · exact .inl rfl
  · exact .inl rfl
  · exact .inl (effectOf_inbox i s)

theorem deliver_next {x : Input} (s : State) (h : x.wellFormed = true) : ∃ t, deliver x s = .next t := by
  cases x with
  | tx tr => exact transact_next s h
  | poll => exact ⟨_, rfl⟩
  | reset => exact ⟨_, rfl⟩

/-- Settles O38: a completion and the idle step keep the inputs to come, and an input taken leaves the rest of them. -/
theorem inputsInsideTheInterfaceAreAlwaysAnswered : Obligations.InputsInsideTheInterfaceAreAlwaysAnswered := by
  unfold Obligations.InputsInsideTheInterfaceAreAlwaysAnswered
  intro s h
  cases he : engineTurn s with
  | true => exact ⟨_, step_engine he, by rwa [complete_inbox]⟩
  | false =>
    cases hx : s.inbox with
    | nil => exact ⟨s, step_idle he hx, h⟩
    | cons x rest =>
      rw [hx] at h
      obtain ⟨hxin, hrest⟩ := List.forall_mem_cons.1 h
      obtain ⟨t, ht⟩ := deliver_next (takeInput rest s) hxin
      refine ⟨t, (step_input he hx).trans ht, ?_⟩
      rcases deliver_inbox ht with hin | hin <;> rw [hin]
      · exact hrest
      · exact List.forall_mem_cons.2 ⟨rfl, hrest⟩

/-! ### Register writes: the locked slots and the others (20_memory.md R76) -/

theorem regWrite_locked {s : State} (hp : s.pend ≠ none) {r : Slot} (hr : r = .cmd ∨ r = .data ∨ r = .bin) (v : Word) :
    regWrite r v s = .next { s with cmdErr := true } := by
  rcases hr with rfl | rfl | rfl
  · exact issue_busy v s hp
  · simp [regWrite, (busy_iff s).2 hp, raiseCmdReject]
  · simp [regWrite, (busy_iff s).2 hp, raiseCmdReject]

theorem regWrite_ignored {r : Slot} (hcmd : r ≠ .cmd) (hdata : r ≠ .data) (hbin : r ≠ .bin) (v : Word) (s : State) :
    regWrite r v s = .next s := by
  cases r with
  | cmd => exact absurd rfl hcmd
  | data => exact absurd rfl hdata
  | bin => exact absurd rfl hbin
  | _ => rfl

/-- Settles O39: the rows of register reads are those of the window, with BUSY = 1 (O32). -/
theorem busyLockHoldsWhileAnOperationIsPending : Obligations.BusyLockHoldsWhileAnOperationIsPending := by
  unfold Obligations.BusyLockHoldsWhileAnOperationIsPending
  intro s rest hp he
  refine ⟨fun off v hoff hx => ?_, fun off v h4 hlt hcmd hdata hbin hx => ?_, fun off hoff hx => ?_,
    fun off v hmem hx => ?_, fun i v hi hx => step_cmWr_busy he hi hp hx, fun i hi hx => step_cmRd he hi hx,
    fun j hj hx => step_pbRd_busy he hj hp hx⟩
  · rcases hoff with rfl | rfl | rfl
    · exact (step_regWr (r := .cmd) he hx rfl).trans (regWrite_locked (s := takeInput rest s) hp (.inl rfl) v)
    · exact (step_regWr (r := .data) he hx rfl).trans (regWrite_locked (s := takeInput rest s) hp (.inr (.inl rfl)) v)
    · exact (step_regWr (r := .bin) he hx rfl).trans (regWrite_locked (s := takeInput rest s) hp (.inr (.inr rfl)) v)
  · obtain ⟨r, hr⟩ := slotAt_inside h4 hlt
    refine (step_regWr he hx hr).trans (regWrite_ignored ?_ ?_ ?_ v _)
    · rintro rfl; exact hcmd (slotAt_cmd hr)
    · rintro rfl; exact hdata (slotAt_data hr)
    · rintro rfl; exact hbin (slotAt_bin hr)
  · refine registerReadsReturnTheWindow s rest off 0 he hx ?_
    simp only [if_neg hp]
    simp only [List.mem_cons, List.not_mem_nil, or_false] at hoff
    rcases hoff with rfl | rfl | rfl | rfl | rfl | rfl <;> simp
  · refine registerReadsReturnTheWindow s rest off v he hx ?_
    simp only [List.mem_cons, List.not_mem_nil, or_false] at hmem ⊢
    tauto

/-! ### Repeating a transaction (20_memory.md R75) -/

theorem Memory.filter_run_eq_nil {w : Nat} {vs : List (BitVec w)} {base : Nat} {p : Nat × BitVec w → Bool}
    (h : ∀ c, base ≤ c.1 → c.1 < base + vs.length → p c = false) : (Memory.run base vs).filter p = [] := by
  simp only [List.filter_eq_nil_iff, Bool.not_eq_true]
  intro c hc
  obtain ⟨hlow, hhigh⟩ := Memory.mem_run hc
  exact h c hlow hhigh

/-- A run of values stored again over itself changes nothing. -/
theorem Memory.write_write {w : Nat} (m : Memory w) (base : Nat) (vs : List (BitVec w)) :
    (m.write base vs).write base vs = m.write base vs := by
  have hlow : (Memory.run base vs).filter (fun c => c.1 < base) = [] :=
    Memory.filter_run_eq_nil fun c hge _ => decide_eq_false (Nat.not_lt.2 hge)
  have hhigh : (Memory.run base vs).filter (fun c => base + vs.length ≤ c.1) = [] :=
    Memory.filter_run_eq_nil fun c _ hlt => decide_eq_false (Nat.not_le.2 hlt)
  have hdisjoint : ∀ c : Nat × BitVec w, ¬ (c.1 < base ∧ base + vs.length ≤ c.1) := by intro c; omega
  simp only [Memory.write, List.filter_append, List.filter_filter, hlow, hhigh]
  simp [← Bool.decide_and, hdisjoint, and_comm]

theorem regValue_answer (q : Reply) (s : State) (r : Slot) : regValue (answer q s) r = regValue s r := by
  cases r <;> rfl

theorem regWrite_twice {r : Slot} (hr : r ≠ .cmd) (v : Word) (s : State) :
    ∃ t, regWrite r v s = .next t ∧ regWrite r v t = .next t := by
  by_cases hp : s.pend = none
  · cases r with
    | cmd => exact absurd rfl hr
    | data => exact ⟨_, regWrite_data_idle hp v, regWrite_data_idle (s := { s with data := v }) hp v⟩
    | bin =>
      exact ⟨_, regWrite_bin_idle hp v, regWrite_bin_idle (s := { s with bin := v.extractLsb' 0 10 }) hp v⟩
    | _ => exact ⟨s, rfl, rfl⟩
  · by_cases hlock : r = .cmd ∨ r = .data ∨ r = .bin
    · exact ⟨_, regWrite_locked hp hlock v, regWrite_locked (s := { s with cmdErr := true }) hp hlock v⟩
    · simp only [not_or] at hlock
      obtain ⟨hcmd, hdata, hbin⟩ := hlock
      exact ⟨s, regWrite_ignored hcmd hdata hbin v s, regWrite_ignored hcmd hdata hbin v s⟩

theorem cmWrite_twice (i : Nat) (v : Word) (s : State) : cmWrite i v (cmWrite i v s) = cmWrite i v s := by
  by_cases hp : s.pend = none
  · rw [cmWrite_idle hp, cmWrite_idle (s := { s with cm := s.cm.write i [v] }) hp, Memory.write_write]
  · rw [cmWrite_busy hp, cmWrite_busy (s := { s with cmdErr := true }) hp]

/-- Settles O40: an answer is not among the things a read looks at, and a value or a rejection stored twice is stored once. -/
theorem readsAreRepeatableAndWritesIdempotent : Obligations.ReadsAreRepeatableAndWritesIdempotent := by
  unfold Obligations.ReadsAreRepeatableAndWritesIdempotent
  refine ⟨fun s tr hwf hread => ?_, fun s tr hwf hwrite => ?_⟩
  · rcases hread with ⟨off, rfl⟩ | ⟨i, rfl⟩ | ⟨j, rfl⟩
    · obtain ⟨r, hr⟩ := Option.isSome_iff_exists.1 ((slotAt_isSome off).trans hwf)
      have hanswer : ∀ u, transact (.regRd off) u = .next (answer (.word (regValue u r)) u) := by
        intro u; simp only [transact, hr]
      refine ⟨_, hanswer s, (hanswer (answer _ s)).trans ?_⟩
      rw [regValue_answer]
      rfl
    · have hi : i < 8192 := Nat.lt_succ_of_le (of_decide_eq_true hwf)
      exact ⟨_, transact_cmRd hi s, transact_cmRd hi _⟩
    · have hj : j < 21504 := Nat.lt_succ_of_le (of_decide_eq_true hwf)
      exact ⟨_, transact_pbRd hj s, transact_pbRd hj _⟩
  · rcases hwrite with ⟨off, v, hoff, rfl⟩ | ⟨i, v, rfl⟩
    · obtain ⟨r, hr⟩ := Option.isSome_iff_exists.1 ((slotAt_isSome off).trans hwf)
      have hcmd : r ≠ .cmd := by rintro rfl; exact hoff (slotAt_cmd hr)
      simpa only [transact, hr] using regWrite_twice hcmd v s
    · have hi : i < 8192 := Nat.lt_succ_of_le (of_decide_eq_true hwf)
      exact ⟨_, transact_cmWr hi v s, (transact_cmWr hi v _).trans (congrArg _ (cmWrite_twice i v s))⟩

/-! ### What can write PB (20_memory.md R66) -/

/-- Storing a run of bytes leaves every byte outside it. -/
theorem State.pbByte_write_out {s t : State} {base : Nat} {vs : List Byte} (h : t.pb = s.pb.write base vs)
    (he : t.epoch = s.epoch) {j : Nat} (hj : ¬ (base ≤ j ∧ j < base + vs.length)) : t.pbByte j = s.pbByte j := by
  rw [State.pbByte_write s t h he, dif_neg hj]

/-- Settles O41: the three writers of PB store one run of bytes each, and nothing outside it changes. -/
theorem onlyThreeCommandsAndResetWriteThePackedBuffer :
    Obligations.OnlyThreeCommandsAndResetWriteThePackedBuffer := by
  unfold Obligations.OnlyThreeCommandsAndResetWriteThePackedBuffer
  intro s t j h hne
  have hrun : ∀ {base : Nat} {vs : List Byte}, t.pb = s.pb.write base vs → t.epoch = s.epoch →
      base ≤ j ∧ j < base + vs.length :=
    fun hpb hep => by_contra fun hj => hne (State.pbByte_write_out hpb hep hj)
  cases he : engineTurn s with
  | true =>
    obtain rfl : complete s = t := by simpa [step_engine he] using h
    rcases complete_cases s ((engineTurn_iff s).1 he).1 with ⟨c, b, -, heq⟩ | ⟨b, hp, hf, heq⟩ | ⟨hp, hf, heq⟩
    · exact absurd (congrArg (State.pbByte · j) heq) hne
    · have hj := hrun (congrArg State.pb heq) (complete_epoch s)
      rw [length_serialize] at hj
      exact .inl ⟨b, hp, rfl, hf, hj⟩
    · have hj := hrun (congrArg State.pb heq) (complete_epoch s)
      rw [length_packedBytes, Nat.zero_add] at hj
      exact .inr (.inl ⟨hp, rfl, hf, hj.2⟩)
  | false =>
    cases stepEffect_of_step h with
    | quiet | dataWrite | binWrite | cmWrite => exact absurd rfl hne
    | overflow he' | success he' => simp [he] at he'
    | reset hx => exact .inr (.inr (.inr ⟨_, hx⟩))
    | @command i rest hx hp ho =>
      by_cases hi : i = .emit
      · subst hi
        have hj := hrun (base := recordIndex s.bin) (vs := serialize s.acc) rfl rfl
        rw [length_serialize] at hj
        exact .inr (.inr (.inl ⟨rest, hx, hp, ho.resolve_right nofun, hj⟩))
      · exact absurd (congrFun (State.pbByte_congr (effectOf_pb hi (takeInput rest s)) (effectOf_epoch i _)) j) hne

/-! ### PACK: the written cells and their bits (20_memory.md R64, R70, R83) -/

theorem Memory.map_fst_run {w : Nat} (vs : List (BitVec w)) (base : Nat) :
    (Memory.run base vs).map Prod.fst = List.range' base vs.length := by
  induction vs generalizing base with
  | nil => rfl
  | cons v vs ih => simp [Memory.run, List.range'_succ, ih]

/-- A run of values that fills the whole space leaves no other cell. -/
theorem Memory.write_full {w size : Nat} {m : Memory w} {vs : List (BitVec w)} (hm : m.wf size)
    (hlen : vs.length = size) : m.write 0 vs = Memory.run 0 vs := by
  subst hlen
  simpa [Memory.write] using hm.2

/-- The completion of a PACK whose counts all fit. -/
theorem complete_pack_success {s : State} (hpack : s.pend = some .pack) (hfit : ∀ c b, fits (s.count c b) = true) :
    complete s = finishLong (publish 0 (packedBytes s) (record s 1023) s) := by
  simp only [complete, hpack, completePack_success (firstBadAll_none.2 hfit)]

/-- Settles O31: the packed bytes are as many as PB has cells. -/
theorem packWritesEveryByteOfThePackedBuffer : Obligations.PackWritesEveryByteOfThePackedBuffer := by
  unfold Obligations.PackWritesEveryByteOfThePackedBuffer
  intro s hinv hpack he hfit
  refine ⟨_, step_engine he, ?_⟩
  rw [complete_pack_success hpack fun c b => (fits_iff _).2 (hfit c b), finishLong_pb, publish_pb,
    Memory.write_full hinv.pb_wf (length_packedBytes s), Memory.map_fst_run, length_packedBytes, List.range_eq_range']

/-- After a successful PACK, byte j is byte j mod 21 of the record of bin j / 21. -/
theorem pbByte_complete_pack {s : State} (hpack : s.pend = some .pack) (hfit : ∀ c b, fits (s.count c b) = true)
    {j : Nat} (hj : j < 21504) :
    (complete s).pbByte j = recordByte (record s (BitVec.ofNat 10 (j / 21))) (j % 21) := by
  have hbin : (BitVec.ofNat 10 (j / 21)).toNat = j / 21 := by
    rw [BitVec.toNat_ofNat]
    exact Nat.mod_eq_of_lt (by omega)
  have hindex : (BitVec.ofNat 10 (j / 21)).toNat * 21 + j % 21 = j := by omega
  have hlt : (BitVec.ofNat 10 (j / 21)).toNat * 21 + j % 21 < (packedBytes s).length := by
    rw [length_packedBytes]; omega
  rw [complete_pack_success hpack hfit, finishLong_pbByte, publish_pbByte,
    dif_pos ⟨Nat.zero_le j, by rw [length_packedBytes]; omega⟩,
    ← getElem_packedBytes s _ (Nat.mod_lt j (by omega)) hlt]
  simp only [hindex, Nat.sub_zero]

/-- The bits of an accumulator after a list of placements: those it had, and those of each placed value. -/
theorem getLsbD_foldl_placeField (f : CamIx → Word) (cs : List CamIx) (a : Accum) {p : Nat} (hp : p < 192) :
    (cs.foldl (fun a c => placeField a c (f c)) a).getLsbD p =
      (a.getLsbD p || cs.any fun c => decide (bitPos c ≤ p) && (f c).getLsbD (p - bitPos c)) := by
  induction cs generalizing a with
  | nil => simp
  | cons c cs ih => rw [List.foldl_cons, ih, getLsbD_placeField a c (f c) p hp, List.any_cons, Bool.or_assoc]

/-- A count that fits puts no bit outside its own field. -/
theorem camera_of_placed_bit {c : CamIx} {v : Word} {p : Nat} (hv : fits v = true) (hle : bitPos c ≤ p)
    (hbit : v.getLsbD (p - bitPos c) = true) : p / 21 = c.toNat ∧ p % 21 = p - bitPos c := by
  have hlt : p - bitPos c < 21 := by
    by_contra h
    simp [getLsbD_of_fits hv (Nat.not_lt.1 h)] at hbit
  simp only [bitPos] at hle hlt ⊢
  omega

/-- Bit p of a record is bit p mod 21 of the count of camera p / 21 (41_matrix_packing.md R142). -/
theorem getLsbD_record {s : State} {b : BinIx} (hfit : ∀ c, fits (s.count c b) = true) {p : Nat} (hp : p < 168) :
    (record s b).getLsbD p = (s.count (BitVec.ofNat 3 (p / 21)) b).getLsbD (p % 21) := by
  have hzero : (0 : Accum).getLsbD p = false := BitVec.getLsbD_zero
  rw [record, getLsbD_foldl_placeField (fun c => s.count c b) cameras 0 (by omega), hzero, Bool.false_or,
    Bool.eq_iff_iff, List.any_eq_true]
  constructor
  · rintro ⟨c, -, hc⟩
    simp only [Bool.and_eq_true, decide_eq_true_eq] at hc
    obtain ⟨hle, hbit⟩ := hc
    obtain ⟨hcam, hoff⟩ := camera_of_placed_bit (hfit c) hle hbit
    rw [hcam, BitVec.ofNat_toNat, BitVec.setWidth_eq, hoff]
    exact hbit
  · intro hbit
    have hpos : bitPos (BitVec.ofNat 3 (p / 21)) = p / 21 * 21 := by
      rw [bitPos, BitVec.toNat_ofNat, Nat.mod_eq_of_lt (by omega)]
    have hoff : p - p / 21 * 21 = p % 21 := by omega
    refine ⟨BitVec.ofNat 3 (p / 21), mem_cameras _, ?_⟩
    simp [hpos, hoff, hbit, Nat.div_mul_le_self]

/-- Settles O25: byte j is a byte of its bin's record, and a record's bits are those of its counts. -/
theorem packPutsEveryCountBitInItsPlace : Obligations.PackPutsEveryCountBitInItsPlace := by
  unfold Obligations.PackPutsEveryCountBitInItsPlace
  intro s hpack he hfit
  replace hfit : ∀ c b, fits (s.count c b) = true := fun c b => (fits_iff _).2 (hfit c b)
  refine ⟨_, step_engine he, fun j m hj hm => ?_⟩
  have hp : 8 * (j % 21) + m < 168 := by omega
  rw [pbByte_complete_pack hpack hfit hj, getLsbD_recordByte _ _ _ hm, getLsbD_record (fun c => hfit c _) hp]

end Sys2Proof.Machine
end

section
/-! PROOFS. The family 30_encoding.md: decoding and encoding as inverses, the legal words as the encodings of the commands,
and the pseudo-instructions WAIT and PACKALL. -/

namespace Sys2Proof.Machine

/-! ### Decoding and encoding (30_encoding.md R93, R94, R96) -/

/-- The encoding laws, one per command in the model, joined over all commands. -/
theorem encoding_statement : ∀ i : Instr, Laws.Encoding.Statement i
  | .nop => Laws.Encoding.nop
  | .aclr => Laws.Encoding.aclr
  | .place cam => Laws.Encoding.place cam
  | .emit => Laws.Encoding.emit
  | .packbin => Laws.Encoding.packbin
  | .pack => Laws.Encoding.pack
  | .eclr => Laws.Encoding.eclr

@[simp] theorem legal_encode (i : Instr) : legal (encode i) = true := by
  obtain ⟨-, hlegal, -⟩ := encoding_statement i
  exact hlegal

@[simp] theorem decode_encode (i : Instr) : decode (encode i) = .ok i := by
  obtain ⟨-, -, hdecode⟩ := encoding_statement i
  exact hdecode

/-- Settles O4: a decoded word is laid out from its fields again, and each command's word decodes to it. -/
theorem decodeAndEncodeAreInverse : Obligations.DecodeAndEncodeAreInverse := by
  unfold Obligations.DecodeAndEncodeAreInverse
  intro w i
  constructor
  · exact encode_of_decode
  · rintro rfl
    exact decode_encode i

/-- Settles O1: each of the words is the encoding of its command. -/
theorem decoderReadsTheFourteenLegalWords : Obligations.DecoderReadsTheFourteenLegalWords := by
  unfold Obligations.DecoderReadsTheFourteenLegalWords
  simp only [decodeAndEncodeAreInverse _ _]
  decide

/-! ### Legal words (30_encoding.md R94 to R96) -/

/-- The commands in the order of the list of 30_encoding.md R94. -/
def commands : List Instr := [.nop, .aclr] ++ cameras.map .place ++ [.emit, .packbin, .pack, .eclr]

theorem mem_commands (i : Instr) : i ∈ commands := by
  cases i with
  | place c => simp [commands, mem_cameras]
  | _ => simp [commands]

/-- The list of 30_encoding.md R94. -/
theorem map_encode_commands : commands.map encode =
    [0x00000000, 0x00000001, 0x00000002, 0x00000012, 0x00000022, 0x00000032, 0x00000042, 0x00000052,
     0x00000062, 0x00000072, 0x00000003, 0x00000004, 0x00000005, 0x00000006] := by decide

/-- The formula of 30_encoding.md R95. -/
theorem legal_iff (w : Word) :
    legal w = true ↔ rsvField w = 0 ∧ (opField w).toNat ≤ 6 ∧ (opField w = 2 ∨ camField w = 0) := by
  simp [legal, and_assoc]

/-- A legal word decodes to the command whose word has the same fields. -/
theorem decode_of_legal {w : Word} {i : Instr} (h : legal w = true)
    (hi : encode i = commandWord (opField w) (camField w)) : decode w = .ok i := by
  obtain ⟨hrsv, -, -⟩ := (legal_iff w).1 h
  rw [commandWord_fields hrsv] at hi
  exact (decodeAndEncodeAreInverse w i).2 hi

/-- A legal word whose OP is not PLACE's has CAM = 0. -/
theorem decode_of_legal_noOperand {w : Word} {i : Instr} {op : BitVec 4} (h : legal w = true) (hop : opField w = op)
    (hplace : op ≠ 2) (hi : encode i = commandWord op 0) : decode w = .ok i := by
  subst hop
  obtain ⟨-, -, hcam⟩ := (legal_iff w).1 h
  exact decode_of_legal h (by rw [hi, hcam.resolve_left hplace])

theorem decode_of_legal_place {w : Word} (h : legal w = true) (hop : opField w = 2) :
    decode w = .ok (.place (camField w)) :=
  decode_of_legal h (by rw [hop, encode])

/-- The fields that a legal word can have are those of some command's word. -/
theorem exists_encode_eq_commandWord {op : BitVec 4} {cam : CamIx} (hop : op.toNat ≤ 6) (hcam : op = 2 ∨ cam = 0) :
    ∃ i, encode i = commandWord op cam := by
  rcases hcam with rfl | rfl
  · exact ⟨.place cam, rfl⟩
  · have hlisted : ∀ op : BitVec 4, op.toNat ≤ 6 → ∃ i ∈ commands, encode i = commandWord op 0 := by decide
    obtain ⟨i, -, hi⟩ := hlisted op hop
    exact ⟨i, hi⟩

theorem exists_decode_of_legal {w : Word} (h : legal w = true) : ∃ i, decode w = .ok i := by
  obtain ⟨-, hop, hcam⟩ := (legal_iff w).1 h
  obtain ⟨i, hi⟩ := exists_encode_eq_commandWord hop hcam
  exact ⟨i, decode_of_legal h hi⟩

theorem legal_iff_encode (w : Word) : legal w = true ↔ ∃ i, encode i = w := by
  constructor
  · intro h
    obtain ⟨i, hi⟩ := exists_decode_of_legal h
    exact ⟨i, encode_of_decode hi⟩
  · rintro ⟨i, rfl⟩
    exact legal_encode i

theorem illegal_iff_decode_error (w : Word) : legal w = false ↔ ∃ e, decode w = .error e := by
  rw [← Bool.not_eq_true, legal_iff_encode]
  simp only [← decodeAndEncodeAreInverse w _]
  cases decode w <;> simp

/-- Settles O3: a legal word with a given OP has the fields of that command's word. -/
theorem decodeFollowsTheCaseTable : Obligations.DecodeFollowsTheCaseTable := by
  unfold Obligations.DecodeFollowsTheCaseTable
  intro w
  refine ⟨illegal_iff_decode_error w, fun h => ⟨?_, ?_, ?_, ?_, ?_, ?_, ?_⟩⟩
  · exact fun hop => decode_of_legal_noOperand h hop (by decide) rfl
  · exact fun hop => decode_of_legal_noOperand h hop (by decide) rfl
  · exact fun hop => decode_of_legal_place h hop
  · exact fun hop => decode_of_legal_noOperand h hop (by decide) rfl
  · exact fun hop => decode_of_legal_noOperand h hop (by decide) rfl
  · exact fun hop => decode_of_legal_noOperand h hop (by decide) rfl
  · exact fun hop => decode_of_legal_noOperand h hop (by decide) rfl

/-- An illegal word written to CMD is rejected, for the lock while busy and for the word itself otherwise. -/
theorem issue_of_illegal {w : Word} (h : legal w = false) (s : State) : issue w s = .next { s with cmdErr := true } := by
  by_cases hp : s.pend = none
  · obtain ⟨e, he⟩ := (illegal_iff_decode_error w).1 h
    exact issue_illegal s hp he
  · exact issue_busy w s hp

/-- Settles O2: the listed words are the encodings of the commands, and so are the legal ones. -/
theorem wordsOutsideTheListAreRejected : Obligations.WordsOutsideTheListAreRejected := by
  unfold Obligations.WordsOutsideTheListAreRejected
  refine ⟨fun w => ?_, legal_iff, fun s w rest h he hx => ?_⟩
  · rw [← map_encode_commands, List.mem_map, legal_iff_encode]
    simp [mem_commands]
  · exact (step_regWr he hx rfl).trans (issue_of_illegal h (takeInput rest s))

/-! ### WAIT and PACKALL (30_encoding.md R98) -/

theorem step_poll_idle {s : State} {rest : List Input} (he : engineTurn s = false) (hx : s.inbox = .poll :: rest)
    (hp : s.pend = none) :
    step s = .next { takeInput rest s with replies := .word (statusWord s) :: s.replies } := by
  have hb : (takeInput rest s).busy = false := (not_busy_iff _).2 hp
  simp only [step_input he hx, deliver, pollStatus, hb]
  rfl

theorem step_poll_busy {s : State} {rest : List Input} (he : engineTurn s = false) (hx : s.inbox = .poll :: rest)
    (hp : s.pend ≠ none) :
    step s = .next { takeInput rest s with inbox := s.inbox, replies := .word (statusWord s) :: s.replies } := by
  have hb : (takeInput rest s).busy = true := (busy_iff _).2 hp
  simp only [step_input he hx, deliver, pollStatus, hb, hx]
  rfl

/-- Settles O55: a poll goes back in front of the inputs exactly when it finds an operation pending. -/
theorem waitPollsUntilBusyReadsZero : Obligations.WaitPollsUntilBusyReadsZero := by
  unfold Obligations.WaitPollsUntilBusyReadsZero
  exact fun s rest he hx => ⟨step_poll_idle he hx, step_poll_busy he hx⟩

/-- WAIT, begun with an operation pending, ends: the polls count `wait` down, the operation completes, and the next poll is
the last. Only the replies tell the state from the one where the completion came at once. -/
theorem run_wait_loop {s : State} {rest : List Input} (hp : s.pend ≠ none) (hx : s.inbox = .poll :: rest) :
    ∃ n before after, Host.Core.run core n s =
      .next { takeInput rest (complete { s with wait := 0, replies := before }) with replies := after } := by
  induction hw : s.wait generalizing s with
  | zero =>
    have hfirst := step_engine ((engineTurn_iff s).2 ⟨hp, .inl hw⟩)
    have hidle := complete_pend s
    have hlast := step_poll_idle (engineTurn_idle hidle) ((complete_inbox s).trans hx) hidle
    have hs : { s with wait := 0 } = s := by rw [← hw]
    refine ⟨2, s.replies, .word (statusWord (complete s)) :: (complete s).replies, ?_⟩
    rw [hs]
    exact (run_step 1 hfirst).trans (run_step 0 hlast)
  | succ k ih =>
    have he : engineTurn s = false := by simp [engineTurn, hw, hx]
    obtain ⟨n, before, after, hrun⟩ :=
      ih (s := { takeInput rest s with inbox := s.inbox, replies := .word (statusWord s) :: s.replies }) hp hx
        (by simp [hw])
    exact ⟨n + 1, before, after, (run_step n (step_poll_busy he hx hp)).trans hrun⟩

/-- Settles O56: PACK is accepted with DONE = 0, and WAIT ends after its completion. -/
theorem packallEndsWithDoneOrOverflow : Obligations.PackallEndsWithDoneOrOverflow := by
  unfold Obligations.PackallEndsWithDoneOrOverflow
  intro s rest hp ho hx
  have haccept : step s = .next (startLong .pack (takeInput (.poll :: rest) s)) :=
    (step_command hp hx (decode_encode .pack)).trans (exec_accepted .pack _ hp (.inl ho))
  obtain ⟨n, before, after, hrun⟩ := run_wait_loop (s := startLong .pack (takeInput (.poll :: rest) s)) nofun rfl
  refine ⟨n + 1, _, (run_step n haccept).trans hrun, rfl, complete_pend _, ?_⟩
  rcases complete_cases { startLong .pack (takeInput (.poll :: rest) s) with wait := 0, replies := before } nofun with
    ⟨c, b, hv, heq⟩ | ⟨b, hpackbin, -, -⟩ | ⟨-, hfit, heq⟩
  · rw [heq]
    exact .inr ⟨rfl, rfl, c, b, hv⟩
  · cases hpackbin
  · rw [heq]
    exact .inl ⟨rfl, ho, hfit⟩

end Sys2Proof.Machine
end

section
/-! PROOFS. The family 40_record_assembly.md: ACLR, PLACE and EMIT, the field of each camera in the accumulator and in its
storage words, and the bytes of a record. -/

namespace Sys2Proof.Machine

/-! ### The eight fields (40_record_assembly.md R115) -/

/-- Each bit of a record lies in the field of one camera. -/
theorem mem_field_iff (c : CamIx) {i : Nat} (hi : i < 168) :
    bitPos c ≤ i ∧ i < bitPos c + 21 ↔ c = BitVec.ofNat 3 (i / 21) := by
  rw [BitVec.toNat_eq, BitVec.toNat_ofNat, Nat.mod_eq_of_lt (by omega : i / 21 < 2 ^ 3)]
  simp only [bitPos]
  omega

/-- Settles O13: the table by evaluation, the tiling because the camera of bit i is i / 21. -/
theorem straddleTable : Obligations.StraddleTable := by
  unfold Obligations.StraddleTable
  refine ⟨by decide, fun i hi => ?_, fun c i ⟨_, hlt⟩ => ?_⟩
  · exact ⟨_, (mem_field_iff _ hi).2 rfl, fun d hd => (mem_field_iff d hi).1 hd⟩
  · have := bitPos_le c
    omega

/-! ### Placement at bit level (40_record_assembly.md R113, R117) -/

theorem getLsbD_placeField_field (a : Accum) (c : CamIx) (v : Word) {j : Nat} (hj : j < 21) :
    (placeField a c v).getLsbD (bitPos c + j) = (a.getLsbD (bitPos c + j) || v.getLsbD j) := by
  have := bitPos_le c
  rw [getLsbD_placeField a c v _ (by omega)]
  simp

theorem getLsbD_placeField_outside {a : Accum} {c : CamIx} {v : Word} (hv : fits v = true) {i : Nat}
    (hi : ¬ (bitPos c ≤ i ∧ i < bitPos c + 21)) : (placeField a c v).getLsbD i = a.getLsbD i := by
  by_cases hlt : i < 192
  · rw [getLsbD_placeField a c v i hlt]
    by_cases hle : bitPos c ≤ i
    · simp [getLsbD_of_fits hv (by omega : 21 ≤ i - bitPos c)]
    · simp [hle]
  · exact getLsbD_placeField_high hv (by omega)

/-- A placement ORs the count into its camera's field. -/
theorem extractLsb'_placeField (a : Accum) (c : CamIx) (v : Word) :
    (placeField a c v).extractLsb' (bitPos c) 21 = a.extractLsb' (bitPos c) 21 ||| v.extractLsb' 0 21 := by
  apply BitVec.eq_of_getLsbD_eq
  intro j hj
  simp [hj, getLsbD_placeField_field a c v hj]

theorem extractLsb'_placeField_of_zero {a : Accum} {c : CamIx} (v : Word) (ha : a.extractLsb' (bitPos c) 21 = 0) :
    (placeField a c v).extractLsb' (bitPos c) 21 = v.extractLsb' 0 21 := by
  rw [extractLsb'_placeField, ha]
  exact BitVec.zero_or

/-- Settles O14: two neighbouring placements commute, and a second one ORs into the field of the first. -/
theorem placementsCommuteAndAccumulate : Obligations.PlacementsCommuteAndAccumulate := by
  unfold Obligations.PlacementsCommuteAndAccumulate
  refine ⟨fun a xs ys hperm => ?_, fun a c v w _ _ hzero => ?_⟩
  · exact hperm.foldl_eq' (fun x _ y _ a => placeField_comm a x.1 y.1 x.2 y.2) a
  · have hfield := extractLsb'_placeField (placeField a c v) c w
    rw [extractLsb'_placeField_of_zero v hzero, ← BitVec.extractLsb'_or] at hfield
    exact hfield

/-! ### Placement on the storage words (40_record_assembly.md R114) -/

@[simp] theorem length_accWords (a : Accum) : (accWords a).length = 6 := by simp [accWords]

@[simp] theorem getElem_accWords (a : Accum) (n : Nat) (h : n < (accWords a).length) : (accWords a)[n] = accWord a n := by
  simp [accWords]

@[simp] theorem length_placeWords (ws : List Word) (c : CamIx) (v : Word) : (placeWords ws c v).length = ws.length := by
  simp only [placeWords]
  split <;> simp

/-- Storage word n after the procedure of R114: the word after the straddle, the field's first word, or another. -/
theorem getElem_placeWords (ws : List Word) (c : CamIx) (v : Word) (n : Nat) (h : n < (placeWords ws c v).length) :
    (placeWords ws c v)[n] =
      if bitPos c % 32 > 11 ∧ bitPos c / 32 + 1 = n then ws[n]'(by simpa using h) ||| v >>> (32 - bitPos c % 32)
      else if bitPos c / 32 = n then ws[n]'(by simpa using h) ||| v <<< (bitPos c % 32)
      else ws[n]'(by simpa using h) := by
  by_cases hoff : bitPos c % 32 > 11
  · by_cases hnext : bitPos c / 32 + 1 = n
    · have hfirst : bitPos c / 32 ≠ n := by omega
      simp [placeWords, hoff, hnext, hfirst]
    · simp [placeWords, List.getElem_modify, hoff, hnext]
  · simp [placeWords, List.getElem_modify, hoff]

/-- Bit m of storage word n after a placement, in the bit positions of R113. -/
theorem getLsbD_accWord_placeField (a : Accum) (c : CamIx) (v : Word) {n m : Nat} (hn : n < 6) (hm : m < 32) :
    (accWord (placeField a c v) n).getLsbD m =
      ((accWord a n).getLsbD m || (decide (bitPos c ≤ 32 * n + m) && v.getLsbD (32 * n + m - bitPos c))) := by
  rw [getLsbD_accWord _ _ _ hm, getLsbD_accWord _ _ _ hm, getLsbD_placeField a c v _ (by omega)]

/-- The storage word in which the field begins takes the low part of the count. -/
theorem accWord_placeField_first (a : Accum) (c : CamIx) (v : Word) :
    accWord (placeField a c v) (bitPos c / 32) = accWord a (bitPos c / 32) ||| v <<< (bitPos c % 32) := by
  have := bitPos_le c
  apply BitVec.eq_of_getLsbD_eq
  intro m hm
  rw [getLsbD_accWord_placeField a c v (by omega) hm]
  by_cases hlow : m < bitPos c % 32
  · have hbelow : ¬ bitPos c ≤ 32 * (bitPos c / 32) + m := by omega
    simp [hlow, hbelow]
  · have hle : bitPos c ≤ 32 * (bitPos c / 32) + m := by omega
    have hsub : 32 * (bitPos c / 32) + m - bitPos c = m - bitPos c % 32 := by omega
    rw [BitVec.getLsbD_or, BitVec.getLsbD_shiftLeft, hsub]
    simp only [hle, hlow, hm, decide_true, decide_false, Bool.not_false, Bool.true_and]

/-- The storage word after it takes the bits of the count that are left, if any are. -/
theorem accWord_placeField_next (a : Accum) (c : CamIx) (v : Word) :
    accWord (placeField a c v) (bitPos c / 32 + 1) =
      accWord a (bitPos c / 32 + 1) ||| v >>> (32 - bitPos c % 32) := by
  have := bitPos_le c
  apply BitVec.eq_of_getLsbD_eq
  intro m hm
  have hle : bitPos c ≤ 32 * (bitPos c / 32 + 1) + m := by omega
  have hsub : 32 * (bitPos c / 32 + 1) + m - bitPos c = 32 - bitPos c % 32 + m := by omega
  rw [getLsbD_accWord_placeField a c v (by omega) hm]
  simp [hle, hsub]

/-- A storage word that holds no bit of the field stays as it is. -/
theorem accWord_placeField_other (a : Accum) {c : CamIx} {v : Word} (hv : fits v = true) {n : Nat}
    (hfirst : bitPos c / 32 ≠ n) (hnext : bitPos c % 32 > 11 → bitPos c / 32 + 1 ≠ n) :
    accWord (placeField a c v) n = accWord a n := by
  apply BitVec.eq_of_getLsbD_eq
  intro m hm
  rw [getLsbD_accWord _ _ _ hm, getLsbD_accWord _ _ _ hm, getLsbD_placeField_outside hv (by omega)]

/-- Settles O12: word by word, the field's first word, the word after it, and the others. -/
theorem placementOnStorageWordsAgrees : Obligations.PlacementOnStorageWordsAgrees := by
  unfold Obligations.PlacementOnStorageWordsAgrees
  intro a c v hv
  have hpos := bitPos_le c
  refine ⟨List.ext_getElem (by simp) fun n _ _ => ?_, fun _ => by omega⟩
  simp only [getElem_placeWords, getElem_accWords]
  split
  · next hnext =>
    obtain ⟨-, rfl⟩ := hnext
    exact accWord_placeField_next a c v
  · next hnext =>
    split
    · next hfirst =>
      subst hfirst
      exact accWord_placeField_first a c v
    · next hfirst => exact accWord_placeField_other a hv hfirst fun hoff h => hnext ⟨hoff, h⟩

/-! ### The commands ACLR and PLACE (40_record_assembly.md R111, R112) -/

/-- Settles O9: ACLR is no data command, so it is accepted whatever OVF is. -/
theorem aclrClearsTheAccumulatorOnly : Obligations.AclrClearsTheAccumulatorOnly := by
  unfold Obligations.AclrClearsTheAccumulatorOnly
  exact ⟨decode_encode .aclr, fun s => ⟨fun hp => exec_accepted .aclr s hp (.inr rfl), exec_busy .aclr s⟩⟩

/-- A PLACE of a count that fits, in a block that may run it. -/
theorem exec_place_fits {s : State} (c : CamIx) (hp : s.pend = none) (ho : s.ovf = false)
    (hv : fits s.data = true) : exec (.place c) s = .next { s with acc := placeField s.acc c s.data } := by
  rw [exec_accepted _ s hp (.inl ho), effectOf, placeEffect_fits hv]

theorem exec_place_overflow {s : State} (c : CamIx) (hp : s.pend = none) (ho : s.ovf = false)
    (hv : fits s.data = false) : exec (.place c) s = .next (raiseFieldOverflow c s.bin s.data s) := by
  rw [exec_accepted _ s hp (.inl ho), effectOf, placeEffect_overflow hv]

/-- The word of PLACE as 40_record_assembly.md R112 writes it. -/
theorem encode_place (c : CamIx) : encode (.place c) = 0x00000002 ||| (c.setWidth 32 <<< 4) :=
  BitVec.or_comm _ _

/-- Settles O10: PLACE is rejected as a data command, and accepted it places or overflows as the validator says. -/
theorem placeValidatesThenPlacesOrCaptures : Obligations.PlaceValidatesThenPlacesOrCaptures := by
  unfold Obligations.PlaceValidatesThenPlacesOrCaptures
  intro c
  refine ⟨?_, fun s => ⟨fun h => exec_blocked _ s h rfl, fun hp ho hv => ?_, fun hp ho hv => ?_⟩⟩
  · rw [← encode_place, decode_encode]
  · exact exec_place_fits c hp ho ((fits_iff _).2 hv)
  · exact exec_place_overflow c hp ho ((not_fits_iff _).2 hv)

/-- Settles O11, from the bits of a placed field. -/
theorem placementSetsExactlyTheFieldBits : Obligations.PlacementSetsExactlyTheFieldBits := by
  unfold Obligations.PlacementSetsExactlyTheFieldBits
  intro s c hp ho hv
  replace hv := (fits_iff s.data).2 hv
  refine ⟨_, exec_place_fits c hp ho hv, rfl, fun j hj => ?_, fun i hi => ?_, fun hzero => ?_⟩
  · exact getLsbD_placeField_field s.acc c s.data hj
  · exact getLsbD_placeField_outside hv hi
  · exact extractLsb'_placeField_of_zero s.data hzero

/-! ### The record's bytes and EMIT (40_record_assembly.md R118 to R120) -/

/-- A record's byte lies within one storage word. -/
theorem recordByte_eq_extract_accWord (a : Accum) (k : Nat) :
    recordByte a k = (accWord a (k / 4)).extractLsb' (8 * (k % 4)) 8 := by
  apply BitVec.eq_of_getLsbD_eq
  intro m hm
  have hbit : 32 * (k / 4) + (8 * (k % 4) + m) = 8 * k + m := by omega
  rw [getLsbD_recordByte a k m hm, BitVec.getLsbD_extractLsb', getLsbD_accWord _ _ _ (by omega), hbit]
  simp [hm]

theorem getElem?_serialize (a : Accum) {k : Nat} (hk : k < 21) : (serialize a)[k]? = some (recordByte a k) := by
  rw [List.getElem?_eq_getElem (by simpa using hk), getElem_serialize]

/-- Settles O16: byte k is cut out of the accumulator at bit 8k. -/
theorem recordBytesAreLittleEndian : Obligations.RecordBytesAreLittleEndian := by
  unfold Obligations.RecordBytesAreLittleEndian
  intro a
  refine ⟨fun k hk => ⟨getElem?_serialize a hk, recordByte_eq_extract_accWord a k⟩, fun i hi => ?_, length_serialize a⟩
  refine ⟨_, getElem?_serialize a (by omega), ?_⟩
  rw [getLsbD_recordByte _ _ _ (Nat.mod_lt i (by omega)), Nat.div_add_mod]

/-- A record's bytes depend on the low 168 bits of the accumulator alone. -/
theorem serialize_congr {a b : Accum} (h : a.extractLsb' 0 168 = b.extractLsb' 0 168) : serialize a = serialize b := by
  refine List.map_congr_left fun k hk => BitVec.eq_of_getLsbD_eq fun m hm => ?_
  have hlt : 8 * k + m < 168 := by
    have := List.mem_range.1 hk
    omega
  have hbit := congrArg (fun x => x.getLsbD (8 * k + m)) h
  simp only [BitVec.getLsbD_extractLsb', hlt, decide_true, Bool.true_and, Nat.zero_add] at hbit
  rw [getLsbD_recordByte _ _ _ hm, getLsbD_recordByte _ _ _ hm, hbit]

/-- EMIT in a block that may run it. -/
theorem exec_emit {s : State} (hp : s.pend = none) (ho : s.ovf = false) :
    exec .emit s = .next { s with pb := s.pb.write (recordIndex s.bin) (serialize s.acc) } :=
  exec_accepted .emit s hp (.inl ho)

/-- Settles O15, from what PB reads after a run of bytes is stored. -/
theorem emitStoresTheRecordAtItsBin : Obligations.EmitStoresTheRecordAtItsBin := by
  unfold Obligations.EmitStoresTheRecordAtItsBin
  refine ⟨decode_encode .emit, fun s => ⟨fun h => exec_blocked .emit s h rfl, fun hp ho => ?_⟩⟩
  have hread := State.pbByte_write s { s with pb := s.pb.write (recordIndex s.bin) (serialize s.acc) } rfl rfl
  simp only [length_serialize, getElem_serialize, recordIndex] at hread
  refine ⟨_, exec_emit hp ho, rfl, fun k hk => ?_, fun j hj => (hread j).trans (dif_neg hj)⟩
  refine (hread _).trans ((dif_pos (by omega)).trans ?_)
  rw [Nat.add_sub_cancel_left]
  rfl

/-- Settles O17: the two states store the same bytes at the same place of the same PB. -/
theorem unusedAccumulatorBitsAreNeverEmitted : Obligations.UnusedAccumulatorBitsAreNeverEmitted := by
  unfold Obligations.UnusedAccumulatorBitsAreNeverEmitted
  intro s s' hp ho hs' hlow
  rw [hs']
  refine ⟨_, _, exec_emit hp ho, exec_emit (s := { s with acc := s'.acc }) hp ho, ?_⟩
  simp only [serialize_congr hlow]

end Sys2Proof.Machine
end

section
/-! PROOFS. The family 41_matrix_packing.md: the acceptance of PACKBIN and PACK, the order of validation, the record as a
pure function of a bin's counts, the completions, the source's `pack`, and the run up to a completion. -/

namespace Sys2Proof.Machine

/-! ### Acceptance (41_matrix_packing.md R144, R146) -/

theorem statusWord_startLong (op : LongOp) {s : State} (ho : s.ovf = false) (hc : s.cmdErr = false) :
    statusWord (startLong op s) = 0x00000001 := by
  simp [statusWord, State.busy, flagBit, ho, hc]

/-- Settles O18: PACKBIN is rejected as a data command, and accepted it starts with BIN. -/
theorem packbinAcceptanceCapturesTheBin : Obligations.PackbinAcceptanceCapturesTheBin := by
  unfold Obligations.PackbinAcceptanceCapturesTheBin
  refine ⟨decode_encode .packbin, fun s => ⟨fun h => exec_blocked .packbin s h rfl, fun hp ho => ?_⟩⟩
  exact ⟨_, exec_accepted .packbin s hp (.inl ho), rfl, statusWord_startLong (.packbin s.bin) ho⟩

/-- Settles O19: PACK is rejected as a data command, and accepted it starts. -/
theorem packAcceptanceSetsBusy : Obligations.PackAcceptanceSetsBusy := by
  unfold Obligations.PackAcceptanceSetsBusy
  refine ⟨decode_encode .pack, fun s => ⟨fun h => exec_blocked .pack s h rfl, fun hp ho => ?_⟩⟩
  exact ⟨_, exec_accepted .pack s hp (.inl ho), rfl, statusWord_startLong .pack ho⟩

/-! ### The order of validation (41_matrix_packing.md R143) -/

/-- In a rising list of all values, those listed before a value are those below it. -/
theorem mem_before_iff_lt {w : Nat} {before after : List (BitVec w)} {a : BitVec w}
    (hsorted : (before ++ a :: after).Pairwise (· < ·)) (hall : ∀ x, x ∈ before ++ a :: after) (x : BitVec w) :
    x ∈ before ↔ x < a := by
  obtain ⟨-, htail, hbefore⟩ := List.pairwise_append.1 hsorted
  refine ⟨fun hx => hbefore x hx a List.mem_cons_self, fun hlt => ?_⟩
  rcases List.mem_append.1 (hall x) with hx | hx
  · exact hx
  · rcases List.mem_cons.1 hx with rfl | hx
    · exact absurd hlt (BitVec.lt_irrefl _)
    · exact absurd (List.rel_of_pairwise_cons htail hx) (BitVec.lt_asymm hlt)

/-- A search through a rising list of all values finds the least value that has an answer. -/
theorem findSome?_eq_some_iff_least {w : Nat} {α : Type} {xs : List (BitVec w)} (hsorted : xs.Pairwise (· < ·))
    (hall : ∀ x, x ∈ xs) (f : BitVec w → Option α) (r : α) :
    xs.findSome? f = some r ↔ ∃ a, f a = some r ∧ ∀ x, x < a → f x = none := by
  rw [List.findSome?_eq_some_iff]
  constructor
  · rintro ⟨before, a, after, rfl, ha, hnone⟩
    exact ⟨a, ha, fun x hx => hnone x ((mem_before_iff_lt hsorted hall x).2 hx)⟩
  · rintro ⟨a, ha, hnone⟩
    obtain ⟨before, after, rfl⟩ := List.append_of_mem (hall a)
    exact ⟨before, a, after, rfl, ha, fun x hx => hnone x ((mem_before_iff_lt hsorted hall x).1 hx)⟩

theorem cameras_sorted : cameras.Pairwise (· < ·) := by decide

theorem bins_sorted : bins.Pairwise (· < ·) := by
  rw [bins_eq, List.pairwise_map]
  refine List.pairwise_lt_range.imp_of_mem fun {i j} _ hj hlt => ?_
  have hj := List.mem_range.1 hj
  rw [BitVec.lt_def, BitVec.toNat_ofNat, BitVec.toNat_ofNat]
  omega

theorem firstBad_some {s : State} {b : BinIx} {c : CamIx} :
    firstBad s b = some c ↔ fits (s.count c b) = false ∧ ∀ d, d < c → fits (s.count d b) = true := by
  rw [firstBad, List.find?_eq_findSome?_guard, findSome?_eq_some_iff_least cameras_sorted mem_cameras]
  simp [Option.guard_eq_some_iff, and_assoc]

theorem firstBadAll_some {s : State} {b : BinIx} {c : CamIx} :
    firstBadAll s = some (b, c) ↔ firstBad s b = some c ∧ ∀ b', b' < b → firstBad s b' = none := by
  rw [firstBadAll, findSome?_eq_some_iff_least bins_sorted mem_bins]
  simp [and_assoc]

/-- The first offending count of the matrix is the least in bin-then-camera order. -/
theorem firstBadAll_some_iff_least {s : State} {b : BinIx} {c : CamIx} :
    firstBadAll s = some (b, c) ↔ fits (s.count c b) = false ∧
      ∀ (b' : BinIx) (c' : CamIx), b' < b ∨ (b' = b ∧ c' < c) → fits (s.count c' b') = true := by
  simp only [firstBadAll_some, firstBad_some, firstBad_none]
  constructor
  · rintro ⟨⟨hbad, hcam⟩, hbin⟩
    refine ⟨hbad, fun b' c' h => ?_⟩
    rcases h with hlt | ⟨rfl, hlt⟩
    · exact hbin b' hlt c'
    · exact hcam c' hlt
  · rintro ⟨hbad, hbefore⟩
    exact ⟨⟨hbad, fun d hd => hbefore b d (.inr ⟨rfl, hd⟩)⟩, fun b' hb' c' => hbefore b' c' (.inl hb')⟩

/-- Settles O22: the searches run through rising lists of all cameras and of all bins. -/
theorem firstOffendingCountIsInBinThenCameraOrder : Obligations.FirstOffendingCountIsInBinThenCameraOrder := by
  unfold Obligations.FirstOffendingCountIsInBinThenCameraOrder
  simp only [← fits_iff, ← not_fits_iff]
  exact fun s => ⟨fun _ _ => firstBad_some, fun _ => firstBad_none, fun _ _ => firstBadAll_some_iff_least,
    firstBadAll_none⟩

/-! ### Records (41_matrix_packing.md R142) -/

/-- A record depends on the eight counts of its bin alone. -/
theorem record_congr_bin {s s' : State} {b : BinIx} (h : ∀ c, s.count c b = s'.count c b) : record s b = record s' b := by
  simp only [record, h]

/-- The placements of a record can be made in any order. -/
theorem foldl_placeField_perm {order : List CamIx} (h : order.Perm cameras) (s : State) (b : BinIx) :
    order.foldl (fun a c => placeField a c (s.count c b)) 0 = record s b :=
  h.foldl_eq' (fun c _ d _ a => placeField_comm a c d (s.count c b) (s.count d b)) 0

/-- Field c of a record is count c. -/
theorem extractLsb'_record {s : State} {b : BinIx} (hfit : ∀ c, fits (s.count c b) = true) (c : CamIx) :
    (record s b).extractLsb' (21 * c.toNat) 21 = (s.count c b).extractLsb' 0 21 := by
  refine BitVec.eq_of_getLsbD_eq fun j hj => ?_
  have hc := c.isLt
  have hcam : (21 * c.toNat + j) / 21 = c.toNat := by omega
  have hoff : (21 * c.toNat + j) % 21 = j := by omega
  have hbit := getLsbD_record hfit (p := 21 * c.toNat + j) (by omega)
  rw [hcam, hoff, BitVec.ofNat_toNat, BitVec.setWidth_eq] at hbit
  simp [hj, hbit]

/-- Counts that fit, placed by hand in an idle block, end up in acc as the placements of those counts. -/
theorem assemble_acc {m : Matrix} {b : BinIx} (hfit : ∀ c, fits (m c b) = true) (order : List CamIx) {s : State}
    (hp : s.pend = none) (ho : s.ovf = false) :
    ∃ u, assemble m b order s = .next u ∧ u.acc = order.foldl (fun a c => placeField a c (m c b)) s.acc := by
  induction order generalizing s with
  | nil => exact ⟨s, rfl, rfl⟩
  | cons c cs ih =>
    rw [assemble, exec_place_fits (s := { s with data := m c b }) c hp ho (hfit c)]
    exact ih hp ho

/-- Settles O21: placements commute, and the bits of a record are those of its counts. -/
theorem recordHoldsTheEightCounts : Obligations.RecordHoldsTheEightCounts := by
  unfold Obligations.RecordHoldsTheEightCounts
  intro s b hfit
  refine ⟨extractLsb'_record hfit, record_acc_high hfit, fun order hperm => ?_⟩
  have hrecord := foldl_placeField_perm hperm s b
  refine ⟨hrecord, fun hp ho => ?_⟩
  obtain ⟨u, hu, hacc⟩ := assemble_acc (m := matrixOf s) hfit order (s := { s with acc := 0 }) hp ho
  exact ⟨_, u, exec_accepted .aclr s hp (.inl ho), hu, hacc.trans hrecord⟩

/-! ### Completion (41_matrix_packing.md R145, R147) -/

theorem complete_packbin {s : State} {b : BinIx} (hp : s.pend = some (.packbin b)) :
    complete s = completePackbin b s := by
  rw [complete, hp]

theorem complete_pack {s : State} (hp : s.pend = some .pack) : complete s = completePack s := by
  rw [complete, hp]

/-- What PB reads after one record is published. -/
theorem pbByte_publish_record (b : BinIx) (a a' : Accum) (s : State) (j : Nat) :
    (publish (recordIndex b) (serialize a) a' s).pbByte j =
      if b.toNat * 21 ≤ j ∧ j < b.toNat * 21 + 21 then recordByte a (j - b.toNat * 21) else s.pbByte j := by
  rw [publish_pbByte]
  simp only [length_serialize, getElem_serialize, recordIndex, dite_eq_ite]

/-- After a successful PACKBIN, byte k of its bin's record. -/
theorem pbByte_complete_packbin {s : State} {b : BinIx} (hp : s.pend = some (.packbin b))
    (hfit : ∀ c, fits (s.count c b) = true) {k : Nat} (hk : k < 21) :
    (complete s).pbByte (b.toNat * 21 + k) = recordByte (record s b) k := by
  rw [complete_packbin hp, completePackbin_success (firstBad_none.2 hfit), finishLong_pbByte, pbByte_publish_record,
    if_pos (by omega), Nat.add_sub_cancel_left]

/-- After a successful PACK, byte k of the record of any bin. -/
theorem pbByte_complete_pack_record {s : State} (hp : s.pend = some .pack) (hfit : ∀ c b, fits (s.count c b) = true)
    (b : BinIx) {k : Nat} (hk : k < 21) :
    (complete s).pbByte (b.toNat * 21 + k) = recordByte (record s b) k := by
  have hb := b.isLt
  have hbin : (b.toNat * 21 + k) / 21 = b.toNat := by omega
  have hoff : (b.toNat * 21 + k) % 21 = k := by omega
  rw [pbByte_complete_pack hp hfit (by omega), hbin, hoff, BitVec.ofNat_toNat, BitVec.setWidth_eq]

/-- Settles O23, by what `firstBad` answers. -/
theorem packbinCompletesAllOrNothing : Obligations.PackbinCompletesAllOrNothing := by
  unfold Obligations.PackbinCompletesAllOrNothing
  simp only [← fits_iff, ← not_fits_iff]
  intro s b hp he
  rw [step_engine he, complete_packbin hp]
  refine ⟨fun c hbad hleast => ?_, fun hfit => ?_⟩
  · rw [completePackbin_overflow (firstBad_some.2 ⟨hbad, hleast⟩)]
    exact ⟨0, rfl⟩
  · refine ⟨_, rfl, ?_, fun k hk => ?_, fun j hj => ?_⟩
    · rw [completePackbin_success (firstBad_none.2 hfit)]
      rfl
    · rw [← complete_packbin hp]
      exact pbByte_complete_packbin hp hfit hk
    · rw [completePackbin_success (firstBad_none.2 hfit), finishLong_pbByte, pbByte_publish_record, if_neg hj]

/-- Settles O24, by what `firstBadAll` answers. -/
theorem packCompletesAllOrNothing : Obligations.PackCompletesAllOrNothing := by
  unfold Obligations.PackCompletesAllOrNothing
  simp only [← fits_iff, ← not_fits_iff]
  intro s hp he
  rw [step_engine he]
  refine ⟨fun b c hbad hleast => ?_, fun hfit => ?_⟩
  · rw [complete_pack hp, completePack_overflow (firstBadAll_some_iff_least.2 ⟨hbad, hleast⟩)]
    exact ⟨0, rfl⟩
  · refine ⟨_, rfl, ?_, fun b k hk => pbByte_complete_pack_record hp hfit b hk⟩
    rw [complete_pack_success hp hfit]
    rfl

/-- Settles O28: both commands write the bytes of a record of the same counts. -/
theorem packingABinIsIndependentOfTheOthers : Obligations.PackingABinIsIndependentOfTheOthers := by
  unfold Obligations.PackingABinIsIndependentOfTheOthers
  simp only [← fits_iff]
  intro s s' b hp hp' he he' hsame hfit'
  have hfit : ∀ c, fits (s.count c b) = true := fun c => by rw [hsame]; exact hfit' c b
  refine ⟨_, _, step_engine he, step_engine he', fun k hk => ?_⟩
  rw [pbByte_complete_packbin hp hfit hk, pbByte_complete_pack_record hp' hfit' b hk, record_congr_bin hsame]

/-! ### The round trip (95_test_vectors.md 1.5) -/

/-- The first n bytes of a record, as one number, are its low 8n bits. -/
theorem sum_recordBytes (a : Accum) (n : Nat) :
    ((List.range n).map (fun k => (recordByte a k).toNat * 2 ^ (8 * k))).sum = a.toNat % 2 ^ (8 * n) := by
  induction n with
  | zero => simp [Nat.mod_one]
  | succ n ih =>
    rw [List.sum_range_succ, ih, recordByte, BitVec.extractLsb'_toNat, Nat.shiftRight_eq_div_pow, Nat.mul_succ, Nat.pow_add,
      Nat.mod_mul, Nat.mul_comm (2 ^ (8 * n))]

/-- Unpacking the bytes of a record gives the field of the accumulator they came from. -/
theorem unpack_eq_extractLsb' {pb : Nat → Byte} {b : BinIx} {a : Accum}
    (h : ∀ k, k < 21 → pb (b.toNat * 21 + k) = recordByte a k) (c : CamIx) :
    unpack pb c b = (a.extractLsb' (21 * c.toNat) 21).toNat := by
  have hbytes : (List.range 21).map (fun k => (pb (21 * b.toNat + k)).toNat * 2 ^ (8 * k)) =
      (List.range 21).map (fun k => (recordByte a k).toNat * 2 ^ (8 * k)) := by
    refine List.map_congr_left fun k hk => ?_
    rw [Nat.mul_comm 21, h k (List.mem_range.1 hk)]
  have hc := c.isLt
  have hsplit : 2 ^ (8 * 21) = 2 ^ (21 * c.toNat) * 2 ^ (168 - 21 * c.toNat) := by
    rw [← Nat.pow_add]
    congr 1
    omega
  rw [unpack, hbytes, sum_recordBytes, hsplit, Nat.mod_mul_right_div_self,
    Nat.mod_mod_of_dvd _ (Nat.pow_dvd_pow 2 (by omega)), BitVec.extractLsb'_toNat, Nat.shiftRight_eq_div_pow]

/-- Settles O27: each record is in PB, and its fields are the counts. -/
theorem unpackingAPackGivesTheCountsBack : Obligations.UnpackingAPackGivesTheCountsBack := by
  unfold Obligations.UnpackingAPackGivesTheCountsBack
  intro s hp he hlt
  have hfit : ∀ c b, fits (s.count c b) = true := fun c b => (fits_iff _).2 (hlt c b)
  refine ⟨_, step_engine he, fun c b => ?_⟩
  rw [unpack_eq_extractLsb' (fun k hk => pbByte_complete_pack_record hp hfit b hk), extractLsb'_record (hfit · b),
    BitVec.extractLsb'_toNat, Nat.shiftRight_zero, Nat.mod_eq_of_lt (hlt c b)]

/-! ### The source's `pack` (41_matrix_packing.md R148) -/

/-- A loop that fails at its first bad element, and else folds. -/
theorem foldlM_eq_elim {α β ε : Type} {f : β → α → Except ε β} {bad : α → Option ε} {g : β → α → β}
    (hf : ∀ a x, f a x = (bad x).elim (.ok (g a x)) .error) (xs : List α) (a : β) :
    xs.foldlM f a = (xs.findSome? bad).elim (.ok (xs.foldl g a)) .error := by
  induction xs generalizing a with
  | nil => rfl
  | cons x xs ih =>
    rw [List.foldlM_cons, List.findSome?_cons, hf]
    cases bad x with
    | some e => rfl
    | none => exact ih (g a x)

/-- The source's error for the count of camera c at bin b. -/
def packError (s : State) (b : BinIx) (c : CamIx) : PackError := ⟨c, b, s.count c b⟩

theorem sourcePlace_eq (s : State) (b : BinIx) (a : Accum) (c : CamIx) :
    sourcePlace (matrixOf s) b a c =
      ((Option.guard (fun c => !fits (s.count c b)) c).map (packError s b)).elim
        (.ok (placeField a c (s.count c b))) .error := by
  cases hv : fits (s.count c b) with
  | true =>
    have hplaced : sourcePlace (matrixOf s) b a c = .ok (placeField a c (s.count c b)) :=
      if_neg (Nat.not_le.2 ((fits_iff _).1 hv))
    simp [hplaced, Option.guard, hv]
  | false =>
    have hfailed : sourcePlace (matrixOf s) b a c = .error (packError s b c) := if_pos ((not_fits_iff _).1 hv)
    simp [hfailed, Option.guard, hv]

/-- The source fails at the bin's first offending count, or adds the bytes of its record. -/
theorem sourceBin_eq (s : State) (buf : List Byte) (b : BinIx) :
    sourceBin (matrixOf s) buf b =
      ((firstBad s b).map (packError s b)).elim (.ok (buf ++ serialize (record s b))) .error := by
  rw [sourceBin, foldlM_eq_elim (sourcePlace_eq s b), ← Function.comp_def (Option.map _), ← List.map_findSome?,
    List.findSome?_guard, ← firstBad]
  cases firstBad s b <;> rfl

/-- The source fails at the matrix's first offending count, or gives all the packed bytes. -/
theorem sourcePack_eq (s : State) :
    sourcePack (matrixOf s) =
      ((firstBadAll s).map fun bc => packError s bc.1 bc.2).elim (.ok (packedBytes s)) .error := by
  rw [sourcePack, foldlM_eq_elim (sourceBin_eq s), firstBadAll, List.map_findSome?, packedBytes, List.flatMap_eq_foldl]
  congr 2
  funext b
  simp [Function.comp_def]

/-- Settles O26: the source's first failure is the count `firstBadAll` finds. -/
theorem packAnswersAsTheSourceDoes : Obligations.PackAnswersAsTheSourceDoes := by
  unfold Obligations.PackAnswersAsTheSourceDoes
  intro s hinv hp he
  obtain ⟨hovf, hdone⟩ := hinv.pend_clean (by simp [hp])
  rw [step_engine he, complete_pack hp, sourcePack_eq]
  cases hbad : firstBadAll s with
  | none =>
    rw [completePack_success hbad]
    refine ⟨fun buf hbuf => ?_, nofun⟩
    cases hbuf
    refine ⟨_, rfl, rfl, hovf, length_packedBytes s, fun j hj => ?_⟩
    rw [finishLong_pbByte, publish_pbByte, dif_pos (by simpa using hj), List.getElem?_eq_getElem (by simpa using hj)]
    simp only [Nat.sub_zero]
  | some bc =>
    obtain ⟨b, c⟩ := bc
    rw [completePack_overflow hbad]
    refine ⟨nofun, fun e herr => ?_⟩
    cases herr
    exact ⟨_, rfl, hdone, rfl, rfl, rfl, rfl, fun _ => rfl⟩

/-! ### The run up to a completion (41_matrix_packing.md R140, R150) -/

/-- What a pending operation reads and what its completion writes stand in v as in s: the operation, CM, PB, BIN, DATA
and acc. -/
def HeldForCompletion (s v : State) : Prop :=
  v.pend = s.pend ∧ v.cm = s.cm ∧ v.pb = s.pb ∧ v.epoch = s.epoch ∧ v.bin = s.bin ∧ v.data = s.data ∧ v.acc = s.acc

theorem HeldForCompletion.refl (s : State) : HeldForCompletion s s := ⟨rfl, rfl, rfl, rfl, rfl, rfl, rfl⟩

theorem HeldForCompletion.pend {s v : State} (h : HeldForCompletion s v) : v.pend = s.pend := h.1

theorem HeldForCompletion.trans {s u v : State} (h : HeldForCompletion s u) (h' : HeldForCompletion u v) :
    HeldForCompletion s v := by
  obtain ⟨hpend, hcm, hpb, hepoch, hbin, hdata, hacc⟩ := h
  obtain ⟨hpend', hcm', hpb', hepoch', hbin', hdata', hacc'⟩ := h'
  exact ⟨hpend'.trans hpend, hcm'.trans hcm, hpb'.trans hpb, hepoch'.trans hepoch, hbin'.trans hbin,
    hdata'.trans hdata, hacc'.trans hacc⟩

/-- An input other than reset, delivered while an operation is pending, can only set CMD_ERR, answer and poll again. -/
theorem deliver_busy {x : Input} {s t : State} (hp : s.pend ≠ none) (hx : x ≠ .reset) (h : deliver x s = .next t) :
    t = { s with cmdErr := t.cmdErr, inbox := t.inbox, replies := t.replies } := by
  rcases deliver_cases h with ⟨-, r, -, rfl⟩ | ⟨-, rfl⟩ | ⟨hreset, -⟩ | ⟨-, q, -, rfl⟩ | ⟨-, -, rfl⟩ |
    ⟨v, -, hidle, -⟩ | ⟨v, -, hidle, -⟩ | ⟨i, v, -, -, hidle, -⟩ | ⟨i, v, -, -, hidle, -⟩
  · rfl
  · rfl
  · exact absurd hreset hx
  · rfl
  · rfl
  · exact absurd hidle hp
  · exact absurd hidle hp
  · exact absurd hidle hp
  · exact absurd hidle hp

/-- A step before the completion, with no reset to come: the completion is one step nearer, and all it depends on stands. -/
theorem step_before_completion {s : State} (hp : s.pend ≠ none) (hin : InputsInside s.inbox)
    (hreset : Input.reset ∉ s.inbox) (he : engineTurn s = false) :
    ∃ t, step s = .next t ∧ HeldForCompletion s t ∧ t.wait + 1 = s.wait ∧ InputsInside t.inbox ∧
      Input.reset ∉ t.inbox := by
  obtain ⟨t, ht, hin'⟩ := inputsInsideTheInterfaceAreAlwaysAnswered s hin
  have hwaiting : ¬ (s.wait = 0 ∨ s.inbox = []) := fun h => by simp [(engineTurn_iff s).2 ⟨hp, h⟩] at he
  obtain ⟨hwait, hnonempty⟩ := not_or.1 hwaiting
  rcases step_cases ht with ⟨he', -⟩ | ⟨-, hempty, -⟩ | ⟨x, rest, -, hx, hd⟩
  · simp [he] at he'
  · exact absurd hempty hnonempty
  · rw [hx] at hreset
    have hrest := List.not_mem_of_not_mem_cons hreset
    have hframe := deliver_busy (s := takeInput rest s) hp (List.ne_of_not_mem_cons hreset).symm hd
    refine ⟨t, ht, ?_, ?_, hin', ?_⟩
    · rw [hframe]
      exact .refl s
    · rw [hframe]
      exact Nat.sub_add_cancel (Nat.pos_of_ne_zero hwait)
    · rcases deliver_inbox hd with hinbox | hinbox <;> rw [hinbox]
      · exact hrest
      · exact List.not_mem_cons_of_ne_of_not_mem nofun hrest

/-- The completion's turn comes after at most `wait` steps, and until then all it depends on stands. -/
theorem run_until_engineTurn {s : State} (hp : s.pend ≠ none) (hin : InputsInside s.inbox)
    (hreset : Input.reset ∉ s.inbox) :
    ∃ n, n ≤ s.wait ∧ (∀ m, m ≤ n → ∃ v, Host.Core.run core m s = .next v ∧ HeldForCompletion s v) ∧
      ∃ u, Host.Core.run core n s = .next u ∧ engineTurn u = true := by
  induction hw : s.wait using Nat.strong_induction_on generalizing s with
  | _ w ih =>
    cases he : engineTurn s with
    | true =>
      refine ⟨0, Nat.zero_le w, fun m hm => ?_, s, rfl, he⟩
      obtain rfl := Nat.le_zero.1 hm
      exact ⟨s, rfl, .refl s⟩
    | false =>
      obtain ⟨t, ht, hheld, hnearer, hin', hreset'⟩ := step_before_completion hp hin hreset he
      have hp' : t.pend ≠ none := by rwa [hheld.pend]
      obtain ⟨n, hn, hbefore, u, hrun, hturn⟩ := ih t.wait (by omega) hp' hin' hreset' rfl
      refine ⟨n + 1, by omega, fun m hm => ?_, u, (run_step n ht).trans hrun, hturn⟩
      cases m with
      | zero => exact ⟨s, rfl, .refl s⟩
      | succ m =>
        obtain ⟨v, hv, hheld'⟩ := hbefore m (by omega)
        exact ⟨v, (run_step m ht).trans hv, hheld.trans hheld'⟩

/-- Settles O29: `wait` counts the steps down to the engine's turn, whose step is the completion. -/
theorem aPendingOperationReachesItsCompletion : Obligations.APendingOperationReachesItsCompletion := by
  unfold Obligations.APendingOperationReachesItsCompletion
  intro s hp hin hreset
  obtain ⟨n, hn, hbefore, u, hrun, hturn⟩ := run_until_engineTurn hp hin hreset
  exact ⟨n, hn, hbefore, u, _, hrun, hturn, step_engine hturn, complete_pend u⟩

/-! ### What a result depends on (41_matrix_packing.md R152) -/

/-- PB, DONE and the overflow's record agree in two states: all of a result but acc. -/
structure AgreeButAcc (s s' : State) : Prop where
  pb : ∀ j, s'.pbByte j = s.pbByte j
  done : s'.done = s.done
  ovf : s'.ovf = s.ovf
  errCam : s'.errCam = s.errCam
  errBin : s'.errBin = s.errBin
  errVal : s'.errVal = s.errVal

/-- Under the invariant, two states with an operation pending can differ in PB alone of these. -/
theorem agreeButAcc_of_pending {s s' : State} (hinv : Inv s) (hinv' : Inv s') (hp : s.pend ≠ none) (hp' : s'.pend ≠ none)
    (hpb : ∀ j, s'.pbByte j = s.pbByte j) : AgreeButAcc s s' := by
  obtain ⟨hovf, hdone⟩ := hinv.pend_clean hp
  obtain ⟨hovf', hdone'⟩ := hinv'.pend_clean hp'
  obtain ⟨hcam, hbin, hval⟩ := hinv.err_clear hovf
  obtain ⟨hcam', hbin', hval'⟩ := hinv'.err_clear hovf'
  exact ⟨hpb, hdone'.trans hdone.symm, hovf'.trans hovf.symm, hcam'.trans hcam.symm, hbin'.trans hbin.symm,
    hval'.trans hval.symm⟩

theorem AgreeButAcc.overflow {s s' : State} (h : AgreeButAcc s s') (c : CamIx) (b : BinIx) (v : Word) :
    AgreeButAcc (finishLong (raiseFieldOverflow c b v s)) (finishLong (raiseFieldOverflow c b v s')) :=
  ⟨h.pb, h.done, rfl, rfl, rfl, rfl⟩

theorem AgreeButAcc.success {s s' : State} (h : AgreeButAcc s s') (base : Nat) (bytes : List Byte) (a : Accum) :
    AgreeButAcc (finishLong (publish base bytes a s)) (finishLong (publish base bytes a s')) where
  pb := fun j => by rw [finishLong_pbByte, finishLong_pbByte, publish_pbByte, publish_pbByte, h.pb j]
  done := rfl
  ovf := h.ovf
  errCam := h.errCam
  errBin := h.errBin
  errVal := h.errVal

theorem firstBadAll_congr {s t : State} (h : t.count = s.count) : firstBadAll t = firstBadAll s := by
  simp only [firstBadAll, firstBad_congr h]

theorem packedBytes_congr {s t : State} (h : t.count = s.count) : packedBytes t = packedBytes s := by
  simp only [packedBytes, record_congr h]

theorem AgreeButAcc.completePackbin {s s' : State} (h : AgreeButAcc s s') (hcount : s'.count = s.count) (b : BinIx) :
    AgreeButAcc (completePackbin b s) (completePackbin b s') ∧
      (completePackbin b s').acc = (completePackbin b s).acc := by
  have hbad' := firstBad_congr hcount b
  cases hbad : firstBad s b with
  | some c =>
    rw [completePackbin_overflow hbad, completePackbin_overflow (hbad'.trans hbad), hcount]
    exact ⟨h.overflow c b _, rfl⟩
  | none =>
    rw [completePackbin_success hbad, completePackbin_success (hbad'.trans hbad), record_congr hcount]
    exact ⟨h.success _ _ _, rfl⟩

theorem AgreeButAcc.completePack {s s' : State} (h : AgreeButAcc s s') (hcount : s'.count = s.count) :
    AgreeButAcc (completePack s) (completePack s') ∧ (completePack s').acc = (completePack s).acc := by
  have hbad' := firstBadAll_congr hcount
  cases hbad : firstBadAll s with
  | some bc =>
    obtain ⟨b, c⟩ := bc
    rw [completePack_overflow hbad, completePack_overflow (hbad'.trans hbad), hcount]
    exact ⟨h.overflow c b _, rfl⟩
  | none =>
    rw [completePack_success hbad, completePack_success (hbad'.trans hbad), packedBytes_congr hcount, record_congr hcount]
    exact ⟨h.success _ _ _, rfl⟩

/-- Completions of the same operation on the same counts keep the agreement and make acc agree. -/
theorem AgreeButAcc.complete {s s' : State} (h : AgreeButAcc s s') (hcount : s'.count = s.count) (hp : s.pend ≠ none)
    (hp' : s'.pend = s.pend) :
    AgreeButAcc (complete s) (complete s') ∧ (complete s').acc = (complete s).acc := by
  cases hop : s.pend with
  | none => exact absurd hop hp
  | some op =>
    cases op with
    | packbin b =>
      rw [complete_packbin hop, complete_packbin (hp'.trans hop)]
      exact h.completePackbin hcount b
    | pack =>
      rw [complete_pack hop, complete_pack (hp'.trans hop)]
      exact h.completePack hcount

/-- Settles O30: while an operation is pending the invariant fixes the flags and the error registers. -/
theorem aLongCommandsResultDependsOnItsInputsAlone : Obligations.ALongCommandsResultDependsOnItsInputsAlone := by
  unfold Obligations.ALongCommandsResultDependsOnItsInputsAlone
  intro s s' hinv hinv' hp hp' he he' hcm hpb
  have hcount : s'.count = s.count := by
    funext c b
    exact hcm (countIndex c b)
  obtain ⟨hagree, hacc⟩ :=
    (agreeButAcc_of_pending hinv hinv' hp (hp' ▸ hp) hpb).complete hcount hp hp'
  exact ⟨_, _, step_engine he, step_engine he', hagree.pb, hacc, hagree.done, hagree.ovf, hagree.errCam, hagree.errBin,
    hagree.errVal⟩

end Sys2Proof.Machine
end

section
/-! PROOFS. The family 42_control.md: NOP and ECLR, the two control commands, whose acceptance does not depend on OVF. -/

namespace Sys2Proof.Machine

theorem exec_nop_idle {s : State} (hp : s.pend = none) : exec .nop s = .next s :=
  exec_accepted .nop s hp (.inr rfl)

theorem exec_eclr_idle {s : State} (hp : s.pend = none) : exec .eclr s = .next (clearErrors s) :=
  exec_accepted .eclr s hp (.inr rfl)

/-- Settles O8: the word 0 is NOP's, so an idle block's step takes the input and executes NOP, which has no effect. -/
theorem nopChangesNothing : Obligations.NopChangesNothing := by
  unfold Obligations.NopChangesNothing
  have hdecode : decode 0x00000000 = .ok .nop := decode_encode .nop
  refine ⟨hdecode, fun s => ⟨exec_nop_idle, exec_busy .nop s⟩, fun s rest hp hx => ?_⟩
  calc step s = exec .nop (takeInput rest s) := step_command hp hx hdecode
    _ = .next (takeInput rest s) := exec_nop_idle (s := takeInput rest s) hp

/-- Settles O20: ECLR is no data command, so it is accepted whatever OVF is, and its effect is the recovery. -/
theorem eclrClearsTheErrorState : Obligations.EclrClearsTheErrorState := by
  unfold Obligations.EclrClearsTheErrorState
  exact ⟨decode_encode .eclr, fun s => ⟨exec_eclr_idle, exec_busy .eclr s⟩⟩

end Sys2Proof.Machine
end

section
/-! PROOFS. The family 60_exceptions.md: when an access is rejected and what an accepted one may set, which steps raise an
overflow and the state they leave, and the bounds of the interface as the only thing that decides about a transaction. -/

namespace Sys2Proof.Machine

/-! ### Allowed or refused (60_exceptions.md R192) -/

theorem slotAt_eq_none_iff (off : Nat) : slotAt off = none ↔ (off % 4 == 0 && decide (off < 0x40)) = false := by
  rw [← slotAt_isSome, Option.isSome_eq_false_iff, Option.isNone_iff_eq_none]

/-- A transaction outside the interface is refused, whatever the state. -/
theorem transact_refused {tr : Transaction} (s : State) (h : tr.wellFormed = false) :
    ∃ r, transact tr s = .refused r := by
  cases tr with
  | regRd off =>
    have hslot := (slotAt_eq_none_iff off).2 h
    exact ⟨.offsetOutside off, by simp only [transact, hslot]⟩
  | regWr off v =>
    have hslot := (slotAt_eq_none_iff off).2 h
    exact ⟨.offsetOutside off, by simp only [transact, hslot]⟩
  | cmRd i => exact ⟨_, if_neg (Nat.not_lt.2 (Nat.lt_of_not_le (of_decide_eq_false h)))⟩
  | cmWr i v => exact ⟨_, if_neg (Nat.not_lt.2 (Nat.lt_of_not_le (of_decide_eq_false h)))⟩
  | pbRd j => exact ⟨_, if_neg (Nat.not_lt.2 (Nat.lt_of_not_le (of_decide_eq_false h)))⟩

/-- Settles O58: in no state is a transaction inside the interface refused, or one outside it answered. -/
theorem everyTransactionInsideTheInterfaceIsAllowedInEveryState :
    Obligations.EveryTransactionInsideTheInterfaceIsAllowedInEveryState := by
  unfold Obligations.EveryTransactionInsideTheInterfaceIsAllowedInEveryState
  exact fun s _ => ⟨transact_next s, transact_refused s⟩

/-! ### Acceptance and rejection of a command word (60_exceptions.md R184 to R186) -/

theorem blockedByOverflow_iff (i : Instr) :
    blockedByOverflow i = true ↔ (∃ c, i = .place c) ∨ i = .emit ∨ i = .packbin ∨ i = .pack := by
  cases i <;> simp [blockedByOverflow]

theorem not_blockedByOverflow_iff (i : Instr) :
    blockedByOverflow i = false ↔ i = .nop ∨ i = .aclr ∨ i = .eclr := by
  cases i <;> simp [blockedByOverflow]

/-- The row CMD of the rejection table, with the data commands as the acceptance rule names them. -/
theorem rejectedAccess_cmd_iff (s : State) (w : Word) :
    RejectedAccess s (.regWr 0x04 w) ↔
      s.pend ≠ none ∨ legal w = false ∨ (s.ovf = true ∧ ∃ i, decode w = .ok i ∧ blockedByOverflow i = true) := by
  have hdata : (∃ i, decode w = .ok i ∧ blockedByOverflow i = true) ↔
      (∃ c, w = encode (.place c)) ∨ w = encode .emit ∨ w = encode .packbin ∨ w = encode .pack := by
    simp only [decodeAndEncodeAreInverse w, blockedByOverflow_iff]
    constructor
    · rintro ⟨i, rfl, ⟨c, rfl⟩ | rfl | rfl | rfl⟩
      exacts [.inl ⟨c, rfl⟩, .inr (.inl rfl), .inr (.inr (.inl rfl)), .inr (.inr (.inr rfl))]
    · rintro (⟨c, rfl⟩ | rfl | rfl | rfl)
      exacts [⟨_, rfl, .inl ⟨c, rfl⟩⟩, ⟨_, rfl, .inr (.inl rfl)⟩, ⟨_, rfl, .inr (.inr (.inl rfl))⟩,
        ⟨_, rfl, .inr (.inr (.inr rfl))⟩]
  rw [hdata]
  rfl

/-- A command word the table rejects sets CMD_ERR alone. -/
theorem issue_rejected {s : State} {w : Word} (h : RejectedAccess s (.regWr 0x04 w)) :
    issue w s = .next { s with cmdErr := true } := by
  rcases (rejectedAccess_cmd_iff s w).1 h with hp | hw | ⟨ho, i, hd, hb⟩
  · exact issue_busy w s hp
  · exact issue_of_illegal hw s
  · by_cases hp : s.pend = none
    · rw [issue_command s hp hd, exec_blocked i s (.inr ho) hb]
    · exact issue_busy w s hp

/-- A command word the table does not reject is a command, accepted in an idle block. -/
theorem accepted_of_not_rejectedAccess {s : State} {w : Word} (h : ¬ RejectedAccess s (.regWr 0x04 w)) :
    s.pend = none ∧ ∃ i, decode w = .ok i ∧ (s.ovf = false ∨ blockedByOverflow i = false) := by
  rw [rejectedAccess_cmd_iff] at h
  simp only [not_or, not_not, Bool.not_eq_false, not_and, not_exists, Bool.not_eq_true] at h
  obtain ⟨hp, hw, ho⟩ := h
  obtain ⟨i, hd⟩ := exists_decode_of_legal hw
  refine ⟨hp, i, hd, ?_⟩
  cases hovf : s.ovf with
  | false => exact .inl rfl
  | true => exact .inr (ho hovf i hd)

/-- An accepted command sets no CMD_ERR, and only ECLR clears it. -/
theorem effectOf_cmdErr {i : Instr} (hi : i ≠ .eclr) (s : State) : (effectOf i s).cmdErr = s.cmdErr := by
  cases i with
  | eclr => exact absurd rfl hi
  | place c => exact placeEffect_cmdErr c s
  | _ => rfl

theorem effectOf_cmdErr_clear (i : Instr) {s : State} (h : s.cmdErr = false) : (effectOf i s).cmdErr = false := by
  by_cases hi : i = .eclr
  · subst hi; rfl
  · exact (effectOf_cmdErr hi s).trans h

/-- Settles O6: the first three cases are the table's row CMD, and outside it the command is accepted. -/
theorem commandsAreAcceptedInThePriorityOrder : Obligations.CommandsAreAcceptedInThePriorityOrder := by
  unfold Obligations.CommandsAreAcceptedInThePriorityOrder
  intro s w rest he hx
  have hreject (h : RejectedAccess s (.regWr 0x04 w)) : step s = .next { takeInput rest s with cmdErr := true } :=
    (step_regWr he hx rfl).trans (issue_rejected (s := takeInput rest s) h)
  simp only [rejectedAccess_cmd_iff] at hreject
  refine ⟨fun hp => hreject (.inl hp), fun _ hw => hreject (.inr (.inl hw)), fun _ ho hdata => ?_, fun i hp hd hacc => ?_⟩
  · refine hreject (.inr (.inr ⟨ho, ?_⟩))
    rcases hdata with ⟨c, hd⟩ | hd | hd | hd <;> exact ⟨_, hd, rfl⟩
  · rw [← not_blockedByOverflow_iff] at hacc
    have hexec := exec_accepted i (takeInput rest s) hp hacc
    exact ⟨_, (step_command hp hx hd).trans hexec, hexec, fun hi => effectOf_cmdErr hi _⟩

/-! ### The rejection table (60_exceptions.md R184) -/

/-- Taking an input does not move an access into or out of the table. -/
theorem rejectedAccess_takeInput (rest : List Input) (s : State) (tr : Transaction) :
    RejectedAccess (takeInput rest s) tr ↔ RejectedAccess s tr := Iff.rfl

/-- Each row of the table sets CMD_ERR alone. -/
theorem transact_rejected {tr : Transaction} {s : State} (hwf : tr.wellFormed = true) (h : RejectedAccess s tr) :
    transact tr s = .next { s with cmdErr := true } := by
  unfold RejectedAccess at h
  split at h
  case h_1 w => exact issue_rejected h
  case h_2 v => exact regWrite_locked h (.inr (.inl rfl)) v
  case h_3 v => exact regWrite_locked h (.inr (.inr rfl)) v
  case h_4 i v => rw [transact_cmWr (Nat.lt_succ_of_le (of_decide_eq_true hwf)), cmWrite_busy h]
  case h_5 => exact h.elim

/-- No transaction outside the table sets CMD_ERR. -/
theorem transact_keeps_cmdErr_clear {tr : Transaction} {s t : State} (hc : s.cmdErr = false)
    (hr : ¬ RejectedAccess s tr) (h : transact tr s = .next t) : t.cmdErr = false := by
  rcases transact_cases h with ⟨q, rfl⟩ | ⟨off, v, r, rfl, hslot, hw⟩ | ⟨i, v, rfl, -, rfl⟩
  · exact hc
  · cases r with
    | cmd =>
      obtain rfl := slotAt_cmd hslot
      obtain ⟨hp, i, hd, ho⟩ := accepted_of_not_rejectedAccess hr
      rw [regWrite, issue_command s hp hd, exec_accepted i s hp ho] at hw
      cases hw
      exact effectOf_cmdErr_clear i hc
    | data =>
      obtain rfl := slotAt_data hslot
      rw [regWrite_data_idle (not_not.1 hr)] at hw
      cases hw
      exact hc
    | bin =>
      obtain rfl := slotAt_bin hslot
      rw [regWrite_bin_idle (not_not.1 hr)] at hw
      cases hw
      exact hc
    | param | status | errLoc | errVal | acc | reserved => cases hw; exact hc
  · rw [cmWrite_idle (not_not.1 hr)]
    exact hc

/-- Settles O7: the table's rows are rejections, and no transaction outside it sets CMD_ERR. -/
theorem rejectionsAreExactlyTheTableAndSetOnlyCmdErr : Obligations.RejectionsAreExactlyTheTableAndSetOnlyCmdErr := by
  unfold Obligations.RejectionsAreExactlyTheTableAndSetOnlyCmdErr
  intro s tr rest he hx hwf
  rw [step_tx he hx, ← rejectedAccess_takeInput rest s tr]
  refine ⟨transact_rejected hwf, fun hc hr => ?_⟩
  obtain ⟨t, ht⟩ := transact_next (takeInput rest s) hwf
  exact ⟨t, ht, transact_keeps_cmdErr_clear (s := takeInput rest s) hc hr ht⟩

/-! ### The steps that raise an overflow (60_exceptions.md R181 to R183) -/

/-- A completion that sets OVF captures the count that does not fit. -/
theorem complete_overflow {s : State} (hp : s.pend ≠ none) (hs : s.ovf = false) (ht : (complete s).ovf = true) :
    ∃ c b, fits (s.count c b) = false ∧ complete s = finishLong (raiseFieldOverflow c b (s.count c b) s) := by
  rcases complete_cases s hp with hover | ⟨b, -, -, heq⟩ | ⟨-, -, heq⟩
  · exact hover
  · rw [heq] at ht
    exact absurd (hs.symm.trans ht) nofun
  · rw [heq] at ht
    exact absurd (hs.symm.trans ht) nofun

/-- Of the commands only PLACE sets OVF, and it captures DATA at BIN. -/
theorem effectOf_overflow {i : Instr} {s : State} (hs : s.ovf = false) (ht : (effectOf i s).ovf = true) :
    ∃ c, i = .place c ∧ fits s.data = false ∧ effectOf i s = raiseFieldOverflow c s.bin s.data s := by
  cases i with
  | place c =>
    cases hv : fits s.data with
    | true =>
      rw [effectOf, placeEffect_fits hv] at ht
      exact absurd (hs.symm.trans ht) nofun
    | false => exact ⟨c, rfl, rfl, placeEffect_overflow hv⟩
  | eclr => cases ht
  | nop | aclr | emit | packbin | pack => exact absurd (hs.symm.trans ht) nofun

/-- The two kinds of step that set OVF: a completion, and an accepted PLACE. -/
theorem step_overflow_cases {s t : State} (h : step s = .next t) (hs : s.ovf = false) (ht : t.ovf = true) :
    (engineTurn s = true ∧ ∃ c b, fits (s.count c b) = false ∧
      t = finishLong (raiseFieldOverflow c b (s.count c b) s)) ∨
    (engineTurn s = false ∧ s.pend = none ∧ fits s.data = false ∧
      ∃ c rest, s.inbox = .tx (.regWr 0x04 (encode (.place c))) :: rest ∧
        t = raiseFieldOverflow c s.bin s.data (takeInput rest s)) := by
  cases he : engineTurn s with
  | true =>
    obtain rfl : complete s = t := by simpa [step_engine he] using h
    exact .inl ⟨rfl, complete_overflow ((engineTurn_iff s).1 he).1 hs ht⟩
  | false =>
    cases stepEffect_of_step h with
    | quiet | dataWrite | binWrite | cmWrite => exact absurd (hs.symm.trans ht) nofun
    | overflow he' | success he' => simp [he] at he'
    | reset => cases ht
    | command hx hp =>
      obtain ⟨c, rfl, hv, heq⟩ := effectOf_overflow (s := takeInput _ s) hs ht
      exact .inr ⟨rfl, hp, hv, c, _, hx, heq⟩

/-- Settles O48: both kinds of step that set OVF raise the one event, on a value that does not fit. -/
theorem everyOverflowIsCapturedAndWritesNothing : Obligations.EveryOverflowIsCapturedAndWritesNothing := by
  unfold Obligations.EveryOverflowIsCapturedAndWritesNothing
  intro s t h hs ht
  rcases step_overflow_cases h hs ht with ⟨he, c, b, hv, rfl⟩ | ⟨he, hp, hv, c, rest, hx, rfl⟩
  · exact ⟨(not_fits_iff _).1 hv, rfl, rfl, fun _ => rfl, fun _ => rfl, rfl, rfl, rfl, rfl, .inl ⟨he, rfl⟩⟩
  · exact ⟨(not_fits_iff _).1 hv, rfl, hp, fun _ => rfl, fun _ => rfl, rfl, rfl, rfl, rfl,
      .inr ⟨he, rfl, rfl, rest, hx⟩⟩

end Sys2Proof.Machine
end

section
/-! PROOFS. The family 70_reset_and_hazards.md: what a step that takes the reset input answers, the block accepting every
command right after it, and the step of a run that is over. -/

namespace Sys2Proof.Machine

/-- The step that takes the reset input answers the reset event's state (70_reset_and_hazards.md R211). -/
theorem step_reset {s : State} {rest : List Input} (he : engineTurn s = false) (hx : s.inbox = .reset :: rest) :
    step s = .next (resetEvent (takeInput rest s)) := step_input he hx

/-- An idle block with no error pending accepts every command, and CMD_ERR stays 0. -/
theorem exec_keeps_cmdErr_clear (i : Instr) {s : State} (hp : s.pend = none) (ho : s.ovf = false)
    (hc : s.cmdErr = false) : ∃ u, exec i s = .next u ∧ u.cmdErr = false :=
  ⟨effectOf i s, exec_accepted i s hp (.inl ho), effectOf_cmdErr_clear i hc⟩

/-- Settles O50: the reset event leaves nothing pending and both error flags 0, and such a block accepts every command. -/
theorem resetBlockAcceptsEveryCommand : Obligations.ResetBlockAcceptsEveryCommand := by
  unfold Obligations.ResetBlockAcceptsEveryCommand
  intro s t rest he hx hstep
  rw [step_reset he hx] at hstep
  cases hstep
  have hp := resetEvent_pend (takeInput rest s)
  have ho := resetEvent_ovf (takeInput rest s)
  have hc := resetEvent_cmdErr (takeInput rest s)
  exact ⟨hp, ho, hc, fun i => exec_keeps_cmdErr_clear i hp ho hc⟩

/-- Settles O51: with nothing pending the engine has no turn, and with no input to come the step is the idle step. -/
theorem aFinishedRunStaysFinished : Obligations.AFinishedRunStaysFinished := by
  unfold Obligations.AFinishedRunStaysFinished
  rintro s ⟨hinbox, hpend⟩
  exact step_idle (engineTurn_idle hpend) hinbox

end Sys2Proof.Machine
end
